-- ==== Sys2Proof/Word.lean ====
section
/-! DEFINITION. The widths of the core's values (00_scope.md R6, R9): every value is an unsigned bit vector. -/

namespace Sys2Proof

/-- A byte: a `V` register, a timer, a byte of memory (R6). -/
abbrev Byte := BitVec 8

/-- A 16-bit word: an instruction word, `I`, `PC`, a stack entry (R6, R70). -/
abbrev Word := BitVec 16

/-- A 4-bit register index, the field `x` or `y` of an instruction (R71, R73). -/
abbrev Reg := BitVec 4

/-- `VF`, the register that doubles as the flag (R22). -/
abbrev VF : Reg := 0xF#4

end Sys2Proof
end

