-- ==== Sys2Proof/Syntax.lean ====
section
/-! DEFINITION. The instructions: one constructor per row of the opcode table (30_encoding.md R76), and the
operation descriptor the decoder answers (R74). Every operand has the width of its field (R71), and a field value is
never reserved (R78), so every term of `Instr` is an instruction (log 18). -/

namespace Sys2Proof

/-- The 34 instructions of R76, named by the source's mnemonics, in the table's order. -/
inductive Instr
  /-- `00E0` clear (R190). -/
  | clear
  /-- `00EE` return (R120). -/
  | ret
  /-- `1nnn` jump (R121). -/
  | jump (nnn : BitVec 12)
  /-- `2nnn` call (R122). -/
  | call (nnn : BitVec 12)
  /-- `3xkk` skip-eq-imm (R126). -/
  | skipEqImm (x : Reg) (kk : Byte)
  /-- `4xkk` skip-ne-imm (R127). -/
  | skipNeImm (x : Reg) (kk : Byte)
  /-- `5xy0` skip-eq-reg (R128). -/
  | skipEqReg (x y : Reg)
  /-- `6xkk` load-imm (R142). -/
  | loadImm (x : Reg) (kk : Byte)
  /-- `7xkk` add-imm (R143). -/
  | addImm (x : Reg) (kk : Byte)
  /-- `8xy0` move (R148). -/
  | move (x y : Reg)
  /-- `8xy1` or (R149). -/
  | or (x y : Reg)
  /-- `8xy2` and (R150). -/
  | and (x y : Reg)
  /-- `8xy3` xor (R151). -/
  | xor (x y : Reg)
  /-- `8xy4` add (R152). -/
  | add (x y : Reg)
  /-- `8xy5` sub (R153). -/
  | sub (x y : Reg)
  /-- `8xy6` shr (R156). -/
  | shr (x y : Reg)
  /-- `8xy7` subn (R157). -/
  | subn (x y : Reg)
  /-- `8xyE` shl (R158). -/
  | shl (x y : Reg)
  /-- `9xy0` skip-ne-reg (R129). -/
  | skipNeReg (x y : Reg)
  /-- `Annn` load-I (R170). -/
  | loadI (nnn : BitVec 12)
  /-- `Bnnn` jump-offset (R125). -/
  | jumpOffset (nnn : BitVec 12)
  /-- `Cxkk` rand (R160). -/
  | rand (x : Reg) (kk : Byte)
  /-- `Dxyn` draw (R192). -/
  | draw (x y : Reg) (n : BitVec 4)
  /-- `Ex9E` skip-key-down (R211). -/
  | skipKeyDown (x : Reg)
  /-- `ExA1` skip-key-up (R212). -/
  | skipKeyUp (x : Reg)
  /-- `Fx07` get-delay (R213). -/
  | getDelay (x : Reg)
  /-- `Fx0A` wait-key (R214). -/
  | waitKey (x : Reg)
  /-- `Fx15` set-delay (R215). -/
  | setDelay (x : Reg)
  /-- `Fx18` set-sound (R216). -/
  | setSound (x : Reg)
  /-- `Fx1E` add-I (R171). -/
  | addI (x : Reg)
  /-- `Fx29` font-addr (R172). -/
  | fontAddr (x : Reg)
  /-- `Fx33` bcd (R173). -/
  | bcd (x : Reg)
  /-- `Fx55` store-regs (R175). -/
  | storeRegs (x : Reg)
  /-- `Fx65` load-regs (R176). -/
  | loadRegs (x : Reg)
  deriving DecidableEq, Repr

/-- What the decoder answers for a word (R74): an instruction, or the tag `UNKNOWN(W)` that carries the word. -/
inductive Op
  | known (i : Instr)
  | unknown (w : Word)
  deriving DecidableEq, Repr

end Sys2Proof
end

