-- ==== Sys2Proof/WellFormed.lean ====
section
/-! DEFINITION. The opcode table of 30_encoding.md R76 as rows of a mask and a match, and the two checks it gives: a
word is an instruction iff it matches a row, and a decoder's answer `UNKNOWN(W)` is well formed iff `W` matches none
(R74, R77). -/

namespace Sys2Proof

/-- One row of R76. -/
structure Row where
  mnemonic : String
  mask     : Word
  fixed    : Word
  deriving DecidableEq, Repr

/-- "A word matches row `r` iff `W & mask_r = match_r`" (R76). -/
def Row.covers (r : Row) (w : Word) : Bool := w &&& r.mask == r.fixed

/-- The row of an instruction (R76; the numbers are that table's). -/
def Instr.row : Instr → Row
  | .clear         => ⟨"clear", 0xFFFF, 0x00E0⟩
  | .ret           => ⟨"return", 0xFFFF, 0x00EE⟩
  | .jump _        => ⟨"jump", 0xF000, 0x1000⟩
  | .call _        => ⟨"call", 0xF000, 0x2000⟩
  | .skipEqImm _ _ => ⟨"skip-eq-imm", 0xF000, 0x3000⟩
  | .skipNeImm _ _ => ⟨"skip-ne-imm", 0xF000, 0x4000⟩
  | .skipEqReg _ _ => ⟨"skip-eq-reg", 0xF00F, 0x5000⟩
  | .loadImm _ _   => ⟨"load-imm", 0xF000, 0x6000⟩
  | .addImm _ _    => ⟨"add-imm", 0xF000, 0x7000⟩
  | .move _ _      => ⟨"move", 0xF00F, 0x8000⟩
  | .or _ _        => ⟨"or", 0xF00F, 0x8001⟩
  | .and _ _       => ⟨"and", 0xF00F, 0x8002⟩
  | .xor _ _       => ⟨"xor", 0xF00F, 0x8003⟩
  | .add _ _       => ⟨"add", 0xF00F, 0x8004⟩
  | .sub _ _       => ⟨"sub", 0xF00F, 0x8005⟩
  | .shr _ _       => ⟨"shr", 0xF00F, 0x8006⟩
  | .subn _ _      => ⟨"subn", 0xF00F, 0x8007⟩
  | .shl _ _       => ⟨"shl", 0xF00F, 0x800E⟩
  | .skipNeReg _ _ => ⟨"skip-ne-reg", 0xF00F, 0x9000⟩
  | .loadI _       => ⟨"load-I", 0xF000, 0xA000⟩
  | .jumpOffset _  => ⟨"jump-offset", 0xF000, 0xB000⟩
  | .rand _ _      => ⟨"rand", 0xF000, 0xC000⟩
  | .draw _ _ _    => ⟨"draw", 0xF000, 0xD000⟩
  | .skipKeyDown _ => ⟨"skip-key-down", 0xF0FF, 0xE09E⟩
  | .skipKeyUp _   => ⟨"skip-key-up", 0xF0FF, 0xE0A1⟩
  | .getDelay _    => ⟨"get-delay", 0xF0FF, 0xF007⟩
  | .waitKey _     => ⟨"wait-key", 0xF0FF, 0xF00A⟩
  | .setDelay _    => ⟨"set-delay", 0xF0FF, 0xF015⟩
  | .setSound _    => ⟨"set-sound", 0xF0FF, 0xF018⟩
  | .addI _        => ⟨"add-I", 0xF0FF, 0xF01E⟩
  | .fontAddr _    => ⟨"font-addr", 0xF0FF, 0xF029⟩
  | .bcd _         => ⟨"bcd", 0xF0FF, 0xF033⟩
  | .storeRegs _   => ⟨"store-regs", 0xF0FF, 0xF055⟩
  | .loadRegs _    => ⟨"load-regs", 0xF0FF, 0xF065⟩

/-- The opcode table: the 34 rows of R76 in its order. -/
def opcodeTable : List Row :=
  [Instr.clear.row, Instr.ret.row, (Instr.jump 0).row, (Instr.call 0).row, (Instr.skipEqImm 0 0).row,
    (Instr.skipNeImm 0 0).row, (Instr.skipEqReg 0 0).row, (Instr.loadImm 0 0).row, (Instr.addImm 0 0).row] ++
  [(Instr.move 0 0).row, (Instr.or 0 0).row, (Instr.and 0 0).row, (Instr.xor 0 0).row, (Instr.add 0 0).row,
    (Instr.sub 0 0).row, (Instr.shr 0 0).row, (Instr.subn 0 0).row, (Instr.shl 0 0).row] ++
  [(Instr.skipNeReg 0 0).row, (Instr.loadI 0).row, (Instr.jumpOffset 0).row, (Instr.rand 0 0).row,
    (Instr.draw 0 0 0).row, (Instr.skipKeyDown 0).row, (Instr.skipKeyUp 0).row] ++
  [(Instr.getDelay 0).row, (Instr.waitKey 0).row, (Instr.setDelay 0).row, (Instr.setSound 0).row, (Instr.addI 0).row,
    (Instr.fontAddr 0).row, (Instr.bcd 0).row, (Instr.storeRegs 0).row, (Instr.loadRegs 0).row]

/-- The word is one of the 43,954 instruction words: some row covers it (R76, R77). -/
def isInstructionWord (w : Word) : Bool := opcodeTable.any (·.covers w)

/-- A decoder's answer is well formed: an instruction always (R78), `UNKNOWN(W)` only for a `W` no row covers (R77). -/
def Op.wellFormed : Op → Bool
  | .known _   => true
  | .unknown w => !isInstructionWord w

end Sys2Proof
end

