-- ==== Sys2Proof/Decode.lean ====
section
/-! DEFINITION. The decoder of 30_encoding.md R75, total on every word and every byte sequence, and the encoder written
from the formats of R72. -/

namespace Sys2Proof

/-! ### The fields of a word (R71) -/

/-- `opClass = W[15:12]`. -/
def Word.opClass (w : Word) : BitVec 4 := w.extractLsb' 12 4

/-- `x = W[11:8]`. -/
def Word.fieldX (w : Word) : Reg := w.extractLsb' 8 4

/-- `y = W[7:4]`. -/
def Word.fieldY (w : Word) : Reg := w.extractLsb' 4 4

/-- `n = W[3:0]`. -/
def Word.fieldN (w : Word) : BitVec 4 := w.extractLsb' 0 4

/-- `kk = W[7:0]`. -/
def Word.fieldKK (w : Word) : Byte := w.extractLsb' 0 8

/-- `nnn = W[11:0]`. -/
def Word.fieldNNN (w : Word) : BitVec 12 := w.extractLsb' 0 12

/-! ### The decoder (R75) -/

/-- Class 0: two fixed words (R75). -/
def decodeClass0 (w : Word) : Op :=
  if w = 0x00E0#16 then .known .clear
  else if w = 0x00EE#16 then .known .ret
  else .unknown w

/-- Class 8: the function nibble `n` selects (R75). -/
def decodeClass8 (w : Word) : Op :=
  match (Word.fieldN w).toNat with
  | 0x0 => .known (.move (Word.fieldX w) (Word.fieldY w))
  | 0x1 => .known (.or (Word.fieldX w) (Word.fieldY w))
  | 0x2 => .known (.and (Word.fieldX w) (Word.fieldY w))
  | 0x3 => .known (.xor (Word.fieldX w) (Word.fieldY w))
  | 0x4 => .known (.add (Word.fieldX w) (Word.fieldY w))
  | 0x5 => .known (.sub (Word.fieldX w) (Word.fieldY w))
  | 0x6 => .known (.shr (Word.fieldX w) (Word.fieldY w))
  | 0x7 => .known (.subn (Word.fieldX w) (Word.fieldY w))
  | 0xE => .known (.shl (Word.fieldX w) (Word.fieldY w))
  | _   => .unknown w

/-- Class E: the function byte `kk` selects (R75). -/
def decodeClassE (w : Word) : Op :=
  match (Word.fieldKK w).toNat with
  | 0x9E => .known (.skipKeyDown (Word.fieldX w))
  | 0xA1 => .known (.skipKeyUp (Word.fieldX w))
  | _    => .unknown w

/-- Class F: the function byte `kk` selects (R75). -/
def decodeClassF (w : Word) : Op :=
  match (Word.fieldKK w).toNat with
  | 0x07 => .known (.getDelay (Word.fieldX w))
  | 0x0A => .known (.waitKey (Word.fieldX w))
  | 0x15 => .known (.setDelay (Word.fieldX w))
  | 0x18 => .known (.setSound (Word.fieldX w))
  | 0x1E => .known (.addI (Word.fieldX w))
  | 0x29 => .known (.fontAddr (Word.fieldX w))
  | 0x33 => .known (.bcd (Word.fieldX w))
  | 0x55 => .known (.storeRegs (Word.fieldX w))
  | 0x65 => .known (.loadRegs (Word.fieldX w))
  | _    => .unknown w

/-- The decode function of R75: total on all 65,536 words, with no side effect (R74). -/
def decode (w : Word) : Op :=
  match (Word.opClass w).toNat with
  | 0x0 => decodeClass0 w
  | 0x1 => .known (.jump (Word.fieldNNN w))
  | 0x2 => .known (.call (Word.fieldNNN w))
  | 0x3 => .known (.skipEqImm (Word.fieldX w) (Word.fieldKK w))
  | 0x4 => .known (.skipNeImm (Word.fieldX w) (Word.fieldKK w))
  | 0x5 => if Word.fieldN w = 0#4 then .known (.skipEqReg (Word.fieldX w) (Word.fieldY w)) else .unknown w
  | 0x6 => .known (.loadImm (Word.fieldX w) (Word.fieldKK w))
  | 0x7 => .known (.addImm (Word.fieldX w) (Word.fieldKK w))
  | 0x8 => decodeClass8 w
  | 0x9 => if Word.fieldN w = 0#4 then .known (.skipNeReg (Word.fieldX w) (Word.fieldY w)) else .unknown w
  | 0xA => .known (.loadI (Word.fieldNNN w))
  | 0xB => .known (.jumpOffset (Word.fieldNNN w))
  | 0xC => .known (.rand (Word.fieldX w) (Word.fieldKK w))
  | 0xD => .known (.draw (Word.fieldX w) (Word.fieldY w) (Word.fieldN w))
  | 0xE => decodeClassE w
  | _   => decodeClassF w

/-! ### The encoder (R72) -/

/-- Format `FA`: `c n n n`. -/
def formatFA (c : BitVec 4) (nnn : BitVec 12) : Word := c ++ nnn

/-- Formats `FXK` and `FX`: `c x k k`, the byte being an immediate or a fixed function byte. -/
def formatFXK (c : BitVec 4) (x : Reg) (kk : Byte) : Word := c ++ (x ++ kk : BitVec 12)

/-- Formats `FXY` and `FXYN`: `c x y n`, the last nibble being a fixed function nibble or a count. -/
def formatFXYN (c : BitVec 4) (x y : Reg) (n : BitVec 4) : Word := c ++ (x ++ (y ++ n : BitVec 8) : BitVec 12)

/-- The word of an instruction (R72, R76). -/
def encode : Instr → Word
  | .clear           => 0x00E0#16
  | .ret             => 0x00EE#16
  | .jump nnn        => formatFA 0x1#4 nnn
  | .call nnn        => formatFA 0x2#4 nnn
  | .skipEqImm x kk  => formatFXK 0x3#4 x kk
  | .skipNeImm x kk  => formatFXK 0x4#4 x kk
  | .skipEqReg x y   => formatFXYN 0x5#4 x y 0x0#4
  | .loadImm x kk    => formatFXK 0x6#4 x kk
  | .addImm x kk     => formatFXK 0x7#4 x kk
  | .move x y        => formatFXYN 0x8#4 x y 0x0#4
  | .or x y          => formatFXYN 0x8#4 x y 0x1#4
  | .and x y         => formatFXYN 0x8#4 x y 0x2#4
  | .xor x y         => formatFXYN 0x8#4 x y 0x3#4
  | .add x y         => formatFXYN 0x8#4 x y 0x4#4
  | .sub x y         => formatFXYN 0x8#4 x y 0x5#4
  | .shr x y         => formatFXYN 0x8#4 x y 0x6#4
  | .subn x y        => formatFXYN 0x8#4 x y 0x7#4
  | .shl x y         => formatFXYN 0x8#4 x y 0xE#4
  | .skipNeReg x y   => formatFXYN 0x9#4 x y 0x0#4
  | .loadI nnn       => formatFA 0xA#4 nnn
  | .jumpOffset nnn  => formatFA 0xB#4 nnn
  | .rand x kk       => formatFXK 0xC#4 x kk
  | .draw x y n      => formatFXYN 0xD#4 x y n
  | .skipKeyDown x   => formatFXK 0xE#4 x 0x9E#8
  | .skipKeyUp x     => formatFXK 0xE#4 x 0xA1#8
  | .getDelay x      => formatFXK 0xF#4 x 0x07#8
  | .waitKey x       => formatFXK 0xF#4 x 0x0A#8
  | .setDelay x      => formatFXK 0xF#4 x 0x15#8
  | .setSound x      => formatFXK 0xF#4 x 0x18#8
  | .addI x          => formatFXK 0xF#4 x 0x1E#8
  | .fontAddr x      => formatFXK 0xF#4 x 0x29#8
  | .bcd x           => formatFXK 0xF#4 x 0x33#8
  | .storeRegs x     => formatFXK 0xF#4 x 0x55#8
  | .loadRegs x      => formatFXK 0xF#4 x 0x65#8

/-! ### Bytes (R54, R55) -/

/-- The word of two bytes, the byte at the lower address being `W[15:8]` (R54). -/
def wordOfBytes (hi lo : Byte) : Word := hi ++ lo

/-- `W[15:8]`, the byte at the lower address. -/
def Word.hiByte (w : Word) : Byte := w.extractLsb' 8 8

/-- `W[7:0]`, the byte at the higher address. -/
def Word.loByte (w : Word) : Byte := w.extractLsb' 0 8

/-- Why a byte sequence gives no instruction. -/
inductive DecodeRefusal
  /-- Fewer than the two bytes of a word (R70). -/
  | truncated
  /-- A word no row of R76 covers (R77). -/
  | unknownOpcode (w : Word)
  deriving DecidableEq, Repr

/-- The instruction at the front of a byte sequence, with the bytes after it. -/
def decodeBytes : List Byte → Except DecodeRefusal (Instr × List Byte)
  | hi :: lo :: rest =>
    match decode (wordOfBytes hi lo) with
    | .known i   => .ok (i, rest)
    | .unknown w => .error (.unknownOpcode w)
  | _ => .error .truncated

/-- The word the opcode table writes as the `nbits` low bits of `w`; every bit above them is 0. -/
def tableWord (nbits w : Nat) : Word := BitVec.ofNat 16 (w % 2 ^ nbits)

/-- The bytes of that word as the hardware stores them, the first at the lowest address (R55). -/
def tableBytes (nbits w : Nat) : List Byte := [Word.hiByte (tableWord nbits w), Word.loByte (tableWord nbits w)]

/-- The instruction the decoder reads from the bytes of a table word. -/
def decodeTableWord (nbits w : Nat) : Option Instr :=
  match decodeBytes (tableBytes nbits w) with
  | .ok (i, _) => some i
  | .error _   => none

end Sys2Proof
end

