-- ==== Sys2Proof/Config.lean ====
section
/-! DEFINITION. What a machine instance fixes (00_scope.md R7) and the free draws (10_state.md R35). -/

namespace Sys2Proof

/-- Source register of `8xy6` and `8xyE` (R7, D15). -/
inductive ShiftSrc
  | vx
  | vy
  deriving DecidableEq, Repr

/-- Whether `Fx1E` writes `VF` (R7, D14). -/
inductive AddIFlag
  | set
  | unchanged
  deriving DecidableEq, Repr

/-- What becomes of sprite pixels past the screen edge (R7, D16). -/
inductive DrawEdge
  | clip
  | wrap
  deriving DecidableEq, Repr

/-- Which of the two writes of a flag-writing class-8 instruction lands last (R7, R141, D3). -/
inductive VfOrder
  | flagThenResult
  | resultThenFlag
  deriving DecidableEq, Repr

/-- Whether the fetch checks the program counter invariant (R7, R101, D5). -/
inductive PcCheck
  | strict
  | bounds
  deriving DecidableEq, Repr

/-- Whether a write below 0x200 faults (R7, R53, D6). -/
inductive LowWrite
  | fault
  | allow
  deriving DecidableEq, Repr

/-- What `Ex9E` and `ExA1` do with an index of 16 or more (R7, R210, D7). -/
inductive KeyIndex
  | fault
  | mask
  deriving DecidableEq, Repr

/-- The configuration parameters of R7, each fixed for the life of a machine instance (R39). -/
structure Config where
  shiftSrc : ShiftSrc
  addIFlag : AddIFlag
  drawEdge : DrawEdge
  vfOrder  : VfOrder
  pcCheck  : PcCheck
  lowWrite : LowWrite
  keyIndex : KeyIndex
  /-- The 80 font bytes `load` copies to 0x000..0x04F (R33, D20). -/
  font     : Vector Byte 80
  deriving DecidableEq, Repr

/-- DESIGN CHOICE (log 5): the free draw of R35 and D21 when no draw is laid out beforehand; no body, so no proof
can know one of its values. Its argument is how many draws the machine has made. -/
opaque Config.freeByte : Nat → Byte

end Sys2Proof
end

