-- ==== Sys2Proof/Machine/Defaults.lean ====
section
/-! DEFINITION. The default configuration (00_scope.md R7) and what a byte of memory reads as before anything is
stored there in the reset state (70_reset_and_hazards.md R261). -/

namespace Sys2Proof.Machine

/-- PRESUMED (log 3): the table of 10_state.md R33, which the spec supplies from general knowledge (X1). One list per
glyph 0..F, top pixel row first. -/
def fontGlyphs : List (List Byte) :=
  [[0xF0, 0x90, 0x90, 0x90, 0xF0], [0x20, 0x60, 0x20, 0x20, 0x70], [0xF0, 0x10, 0xF0, 0x80, 0xF0],
    [0xF0, 0x10, 0xF0, 0x10, 0xF0], [0x90, 0x90, 0xF0, 0x10, 0x10], [0xF0, 0x80, 0xF0, 0x10, 0xF0]] ++
  [[0xF0, 0x80, 0xF0, 0x90, 0xF0], [0xF0, 0x10, 0x20, 0x40, 0x40], [0xF0, 0x90, 0xF0, 0x90, 0xF0],
    [0xF0, 0x90, 0xF0, 0x10, 0xF0], [0xF0, 0x90, 0xF0, 0x90, 0x90], [0xE0, 0x90, 0xE0, 0x90, 0xE0]] ++
  [[0xF0, 0x80, 0x80, 0x80, 0xF0], [0xE0, 0x90, 0x90, 0x90, 0xE0], [0xF0, 0x80, 0xF0, 0x80, 0xF0],
    [0xF0, 0x80, 0xF0, 0x80, 0x80]]

/-- The 80 bytes of the default font in address order (R33). -/
def fontBytes : List Byte := fontGlyphs.flatten

/-- The default `font` parameter (R7, D20). -/
def defaultFont : Vector Byte 80 := Vector.ofFn (fun k => fontBytes.getD k.val 0)

/-- DESIGN CHOICE (log 2): the defaults of R7, the setting of `State.reset`. -/
def defaultConfig : Config where
  shiftSrc := .vx
  addIFlag := .set
  drawEdge := .clip
  vfOrder  := .flagThenResult
  pcCheck  := .strict
  lowWrite := .fault
  keyIndex := .fault
  font     := defaultFont

/-- DESIGN CHOICE (log 4): what an address the memory list does not mention reads as. The default font at
0x000..0x04F (R33) and 0 elsewhere, the value "a deterministic simulator may take" for `initFill` (R261). Every other
`initFill` and every other font is a launch state that lists its bytes (`State.load`). -/
def background (a : Nat) : Byte := fontBytes.getD a 0

end Sys2Proof.Machine
end

