-- ==== Sys2Proof/Machine/Memory.lean ====
section
/-! DEFINITION. The memory array `MEM` (10_state.md R36, 20_memory.md R50) as a list of cells in one canonical form:
addresses strictly rising and below 4096, no cell equal to what an unlisted address reads as. The checks of an access
stand in Ops.lean; nothing here checks. -/

namespace Sys2Proof.Machine

/-- `MEM_SIZE` (R6): every address below it exists, and no other does (R51). -/
abbrev memSize : Nat := 4096

/-- `PROGRAM_BASE` (R6): the image's first address; the low region lies below it (R53). -/
abbrev programBase : Nat := 0x200

/-- The memory array (R36), sparse over `background`. -/
abbrev Memory := List Host.Cell

/-- The listed byte at an address. -/
def Memory.lookup : Memory → Nat → Option Byte
  | [], _ => none
  | (k, b) :: m, a => if k = a then some b else Memory.lookup m a

/-- The byte at an address (R52, unchecked). -/
def Memory.read (m : Memory) (a : Nat) : Byte := (Memory.lookup m a).getD (background a)

/-- List a byte at its place in the rising order. -/
def Memory.put : Memory → Nat → Byte → Memory
  | [], a, b => [(a, b)]
  | (k, c) :: m, a, b =>
    if a < k then (a, b) :: (k, c) :: m
    else if a = k then (a, b) :: m
    else (k, c) :: Memory.put m a b

/-- Unlist an address. -/
def Memory.erase (m : Memory) (a : Nat) : Memory := m.filter (fun cell => cell.1 != a)

/-- Store one byte (R53, unchecked), keeping the canonical form. -/
def Memory.write (m : Memory) (a : Nat) (b : Byte) : Memory :=
  if b = background a then Memory.erase m a else Memory.put m a b

/-- Store bytes at increasing addresses. -/
def Memory.writeBytes : Memory → Nat → List Byte → Memory
  | m, _, [] => m
  | m, a, b :: bs => Memory.writeBytes (Memory.write m a b) (a + 1) bs

/-- The memory that reads as `f` at every address (R260: what `load` builds). -/
def Memory.ofBytes (f : Nat → Byte) : Memory :=
  (List.range memSize).filterMap (fun a => if f a = background a then none else some (a, f a))

/-- The canonical form. -/
abbrev Memory.wf (m : Memory) : Prop :=
  m.Pairwise (fun p q => p.1 < q.1) ∧ ∀ cell ∈ m, cell.1 < memSize ∧ cell.2 ≠ background cell.1

end Sys2Proof.Machine
end

