-- ==== Sys2Proof/Machine/State.lean ====
section
/-! DEFINITION. The architectural state of 10_state.md R20 as plain data, the fault reasons of 60_exceptions.md R230,
and the state right after reset (R38). -/

namespace Sys2Proof.Machine

/-- The fault reasons of R230. The spec describes what a fault does to the state (R106, R233), so a fault raised in a
step is a NEXT state whose `execState` is `faulted` of its reason (log 8): `step` and `exec` never answer
`Outcome.fault`. Only a `load` that builds no state (R260) answers it, with `programTooLarge`. -/
inductive Fault
  /-- An access or a fetch at or above 4096. Raised by the fetch, `Fx33`, `Fx55`, `Fx65` and `Dxyn`. Safe: R51. -/
  | addressOutOfRange
  /-- `2nnn` with 16 entries stacked. Raised by `push`. Safe: R27. -/
  | stackOverflow
  /-- `00EE` with an empty stack. Raised by `pop`. Safe: R27. -/
  | stackUnderflow
  /-- A word no row of R76 covers. Raised by the step that executes it. Safe: R107. -/
  | unknownOpcode
  /-- An image longer than 0xE00 bytes. Raised by `load` alone, as `Outcome.fault`. Safe: R260. -/
  | programTooLarge
  /-- A fetch from an odd `PC` or one below 0x200, under `pcCheck = strict`. Raised by the fetch. Safe: R101. -/
  | pcInvariant
  /-- A store below 0x200 under `lowWrite = fault`. Raised by `Fx33` and `Fx55`. Safe: R53. -/
  | fontWrite
  /-- A key index of 16 or more under `keyIndex = fault`. Raised by `Ex9E` and `ExA1`. Safe: R210. -/
  | keyIndexOutOfRange
  deriving DecidableEq, Repr

/-- Why the model would give an instruction no meaning. -/
inductive Refusal
  /-- An instruction without a meaning yet. Raised by no arm of this model: every instruction has its meaning. Safe. -/
  | notModelled (mnemonic : String)
  deriving DecidableEq, Repr

/-- The execution state `EXEC` (R32). -/
inductive ExecState
  | running
  | awaitingKey (x : Reg)
  | faulted (reason : Fault)
  deriving DecidableEq, Repr

/-- The display surface `FB[r][c]`, row 0..31 and column 0..63 (R30). -/
abbrev Display := Vector (Vector Bool 64) 32

/-- The model's own source of free draws (log 5), no state of the spec's (R35): the bytes laid out beforehand, taken
from the front, and how many draws have been made. When none is laid out the draw is `Config.freeByte` of the count. -/
structure Draws where
  tape  : List Byte
  count : Nat
  deriving DecidableEq, Repr

/-- The state record of R20, with the instance's configuration (R7, R39, log 1) and the model's draws (log 5). -/
structure State where
  /-- The configuration; no transaction changes it (R39). -/
  cfg       : Config
  /-- `MEM` (R36). -/
  mem       : Memory
  /-- `V0..VF` (R21). -/
  v         : Vector Byte 16
  /-- `I` (R24). -/
  i         : Word
  /-- `PC` (R25). -/
  pc        : Word
  /-- `STACK[0..15]` (R28). -/
  stack     : Vector Word 16
  /-- `SP`, the depth 0..16 (R28). -/
  sp        : Fin 17
  /-- `DT`, the delay timer (R29). -/
  dt        : Byte
  /-- `ST`, the sound timer (R29). -/
  st        : Byte
  /-- `FB` (R30). -/
  fb        : Display
  /-- `KEYS`: bit `k` is key `k`, 1 when pressed (R31, R10). -/
  keys      : BitVec 16
  /-- `PREV_KEYS` (R34). -/
  prevKeys  : BitVec 16
  /-- `EXEC` (R32). -/
  execState : ExecState
  /-- The model's draws (log 5). -/
  draws     : Draws
  deriving DecidableEq, Repr

/-- The display with every pixel 0 (R38, R190). -/
def Display.blank : Display := Vector.replicate 32 (Vector.replicate 64 false)

/-- No draw laid out, none made (log 7). -/
def Draws.fresh : Draws := ⟨[], 0⟩

/-- The state after reset (R38, R260): the launch with an empty image (R262), `initFill` 0 (log 4) and the default
configuration (log 2). -/
def State.reset : State where
  cfg       := defaultConfig
  mem       := []
  v         := Vector.replicate 16 0
  i         := 0
  pc        := 0x200
  stack     := Vector.replicate 16 0
  sp        := 0
  dt        := 0
  st        := 0
  fb        := Display.blank
  keys      := 0
  prevKeys  := 0
  execState := .running
  draws     := Draws.fresh

end Sys2Proof.Machine
end

