-- ==== Sys2Proof/Machine/Operands.lean ====
section
/-! DEFINITION. Every operand form: register read and write (10_state.md R21), the shift source (42_alu.md R156, R158),
the key index (45_input_timers.md R210), and the block of registers `V0..Vx` (43_index_memory.md R175, R176). -/

namespace Sys2Proof.Machine

/-- `V[x]` (R10, R21). -/
def State.readV (s : State) (x : Reg) : Byte := s.v[x.toNat]

/-- `V[x] <- b` (R10, R21). -/
def State.writeV (s : State) (x : Reg) (b : Byte) : State := { s with v := s.v.set x.toNat b }

/-- The register a shift reads: `(shiftSrc = vx) ? V[x] : V[y]` (R156, R158). -/
def State.shiftOperand (s : State) (x y : Reg) : Byte :=
  match s.cfg.shiftSrc with
  | .vx => s.readV x
  | .vy => s.readV y

/-- `key(v)` (R210): the index of the latch a byte selects, or the fault. -/
def keyOf (cfg : Config) (b : Byte) : Except Fault Nat :=
  if b.toNat < 16 then .ok b.toNat
  else
    match cfg.keyIndex with
    | .mask  => .ok (b.toNat % 16)
    | .fault => .error .keyIndexOutOfRange

/-- `KEYS[k]` (R10, R31). -/
def State.keyDown (s : State) (k : Nat) : Bool := s.keys.getLsbD k

/-- `V[0], …, V[n-1]` in increasing order (R175). -/
def State.firstRegs (s : State) (n : Nat) : List Byte := s.v.toList.take n

/-- Write bytes to registers of increasing index, the first to `V[k]` (R176). -/
def State.writeRegs : State → Nat → List Byte → State
  | s, _, [] => s
  | s, k, b :: bs => State.writeRegs (s.writeV (BitVec.ofNat 4 k) b) (k + 1) bs

end Sys2Proof.Machine
end

