-- ==== Sys2Proof/Machine/Flags.lean ====
section
/-! DEFINITION. The 8-bit results and the flags of 42_alu.md R140, the order in which a result and a flag are written
(R141), and the flag of `Fx1E` (43_index_memory.md R171). Sums and differences are exact naturals, narrowed at the end. -/

namespace Sys2Proof.Machine

/-- A flag as the byte `VF` holds: 1 or 0 (R22). -/
def flagByte (f : Bool) : Byte := if f then 1 else 0

/-- `(a + b) mod 256` (R140). -/
def addResult (a b : Byte) : Byte := BitVec.ofNat 8 ((a.toNat + b.toNat) % 256)

/-- Carry: `a + b > 255` (R140). -/
def addCarry (a b : Byte) : Bool := decide (a.toNat + b.toNat > 255)

/-- `(a + 256 - b) mod 256` (R140). -/
def subResult (a b : Byte) : Byte := BitVec.ofNat 8 ((a.toNat + 256 - b.toNat) % 256)

/-- No borrow: `a >= b` (R140). -/
def subNoBorrow (a b : Byte) : Bool := decide (a.toNat ≥ b.toNat)

/-- `a >> 1` (R140). -/
def shrResult (a : Byte) : Byte := a >>> 1

/-- The bit a right shift drops: `a & 1` (R140). -/
def shrOut (a : Byte) : Bool := a.getLsbD 0

/-- `(a << 1) mod 256` (R140). -/
def shlResult (a : Byte) : Byte := a <<< 1

/-- The bit a left shift drops: `(a >> 7) & 1` (R140). -/
def shlOut (a : Byte) : Bool := a.getLsbD 7

/-- `write_fr(x, r, f)` (R141): a result to `V[x]` and a flag to `VF`, in the order `vfOrder` gives. -/
def State.writeFR (s : State) (x : Reg) (r : Byte) (f : Bool) : State :=
  match s.cfg.vfOrder with
  | .flagThenResult => (s.writeV VF (flagByte f)).writeV x r
  | .resultThenFlag => (s.writeV x r).writeV VF (flagByte f)

/-- `(I + Vx) mod 0x10000` (R171). -/
def addIResult (i : Word) (b : Byte) : Word := BitVec.ofNat 16 ((i.toNat + b.toNat) % 0x10000)

/-- The flag of `Fx1E`: the new `I` exceeds 0xFFF (R171, D13). -/
def addIOver (newI : Word) : Bool := decide (newI.toNat > 0xFFF)

end Sys2Proof.Machine
end

