-- ==== Sys2Proof/Machine/Ops.lean ====
section
/-! DEFINITION. The shared operations: taking a fault (40_cycle.md R106), the checked memory accesses (20_memory.md R52
to R58, 43_index_memory.md R174), the call stack (10_state.md R27), the free draws (R35), and the parts of a step
around an instruction's own effect (R101, R103, R107, R108, R109). -/

namespace Sys2Proof.Machine

/-- What a meaning answers. -/
abbrev Result := Host.Outcome State Fault Refusal

/-! ### Taking a fault -/

/-- Fault entry (R106, R233): `EXEC <- Faulted(reason)`, and nothing else. The caller has written nothing, so there is
nothing to discard; the pre-advance stays. There is no return from a fault (R234). -/
def State.raiseFault (s : State) (f : Fault) : State := { s with execState := .faulted f }

/-- End an instruction that may fault: its next state, or the fault taken in the state the instruction began in. -/
def completeOr (s : State) (r : Except Fault State) : Result :=
  match r with
  | .ok t    => .next t
  | .error f => .next (s.raiseFault f)

/-! ### Memory -/

/-- `MemRead(a, 1)` (R52). -/
def State.memRead (s : State) (a : Nat) : Except Fault Byte :=
  if a ≥ memSize then .error .addressOutOfRange else .ok (s.mem.read a)

/-- The kinds of a block access (R174). -/
inductive AccessKind
  | read
  | write
  deriving DecidableEq, Repr

/-- The check of one address (R52, R53): the fault it raises, if any. -/
def checkAddr (cfg : Config) (kind : AccessKind) (a : Nat) : Option Fault :=
  if a ≥ memSize then some .addressOutOfRange
  else if kind = .write ∧ a < programBase ∧ cfg.lowWrite = .fault then some .fontWrite
  else none

/-- `MemWrite(a, 1, v)` (R53). -/
def State.memWrite (s : State) (a : Nat) (b : Byte) : Except Fault State :=
  match checkAddr s.cfg .write a with
  | some f => .error f
  | none   => .ok { s with mem := s.mem.write a b }

/-- `check(a0, count, kind)` (R174): the fault of the first failing address, in increasing order. -/
def checkBlock (cfg : Config) (kind : AccessKind) : Nat → Nat → Option Fault
  | _, 0 => none
  | a, count + 1 =>
    match checkAddr cfg kind a with
    | some f => some f
    | none   => checkBlock cfg kind (a + 1) count

/-- `MemWrite` of bytes at increasing addresses (R57). -/
def State.storeBytes : State → Nat → List Byte → Except Fault State
  | s, _, [] => .ok s
  | s, a, b :: bs =>
    match s.memWrite a b with
    | .error f => .error f
    | .ok t    => State.storeBytes t (a + 1) bs

/-- `MemRead` of bytes at increasing addresses (R57). -/
def State.loadBytes (s : State) : Nat → Nat → Except Fault (List Byte)
  | _, 0 => .ok []
  | a, count + 1 =>
    match s.memRead a with
    | .error f => .error f
    | .ok b    =>
      match State.loadBytes s (a + 1) count with
      | .error f => .error f
      | .ok bs   => .ok (b :: bs)

/-- A multi-byte store: every address is checked before any byte moves (R58, R174). -/
def State.storeBlock (s : State) (a : Nat) (bs : List Byte) : Except Fault State :=
  match checkBlock s.cfg .write a bs.length with
  | some f => .error f
  | none   => s.storeBytes a bs

/-- A multi-byte load: every address is checked before any byte moves (R58, R174). -/
def State.loadBlock (s : State) (a count : Nat) : Except Fault (List Byte) :=
  match checkBlock s.cfg .read a count with
  | some f => .error f
  | none   => s.loadBytes a count

/-! ### The call stack (R27) -/

/-- `push(v)`. -/
def State.push (s : State) (w : Word) : Except Fault State :=
  if h : s.sp.val < 16 then
    .ok { s with stack := s.stack.set s.sp.val w, sp := ⟨s.sp.val + 1, by omega⟩ }
  else .error .stackOverflow

/-- `pop()`: the popped value and the state after. The popped entry stays in place (D30). -/
def State.pop (s : State) : Except Fault (Word × State) :=
  if h : s.sp.val = 0 then .error .stackUnderflow
  else
    .ok (s.stack[s.sp.val - 1]'(by have := s.sp.isLt; omega),
      { s with sp := ⟨s.sp.val - 1, by have := s.sp.isLt; omega⟩ })

/-! ### Free draws -/

/-- `draw_byte()` (R10, R35): one free byte, laid out or opaque (log 5). -/
def State.drawByte (s : State) : Byte × State :=
  match s.draws.tape with
  | b :: rest => (b, { s with draws := ⟨rest, s.draws.count + 1⟩ })
  | []        => (Config.freeByte s.draws.count, { s with draws := ⟨[], s.draws.count + 1⟩ })

/-- `E` of R108: the keys pressed in the current latch and not in the previous one, lowest first. -/
def State.keyEdges (s : State) : List Nat :=
  (List.range 16).filter (fun k => s.keys.getLsbD k && !s.prevKeys.getLsbD k)

/-- `choose(E)` (R108, D10): no key of an empty set, the only key of a singleton, and of several keys any one, by a
free draw (log 6). -/
def State.chooseKey (s : State) : List Nat → Option (Nat × State)
  | []      => none
  | [k]     => some (k, s)
  | k :: ks => some ((k :: ks).getD (s.drawByte.1.toNat % (k :: ks).length) k, s.drawByte.2)

/-! ### The parts of a step -/

/-- `Fetch(a)` (R54): the byte at the lower address is the high byte (R55). -/
def State.fetchAt (s : State) (a : Nat) : Except Fault Word :=
  if a + 1 ≥ memSize then .error .addressOutOfRange
  else .ok (wordOfBytes (s.mem.read a) (s.mem.read (a + 1)))

/-- The fetch phase (R101): the bound first, then the program counter invariant under `pcCheck = strict` (R232). -/
def State.fetchPhase (s : State) : Except Fault Word :=
  if s.pc.toNat + 1 ≥ memSize then .error .addressOutOfRange
  else if s.cfg.pcCheck = .strict ∧ (s.pc.toNat % 2 = 1 ∨ s.pc.toNat < programBase) then .error .pcInvariant
  else s.fetchAt s.pc.toNat

/-- `PC <- PC + 2`: the pre-advance (R103), a taken skip (R130), the advance at a captured key (R108). -/
def State.advance (s : State) : State := { s with pc := s.pc + 2 }

/-- A skip (R130): past one more word when the condition holds. -/
def State.skipIf (s : State) (c : Bool) : State := if c then s.advance else s

/-- `UNKNOWN(W)` (R107): always the fault, after the pre-advance. -/
def execUnknown (_w : Word) (s : State) : Result := .next (s.raiseFault .unknownOpcode)

/-- The poll in `AwaitingKey(x)` (R108). -/
def State.poll (s : State) (x : Reg) : State :=
  match s.chooseKey s.keyEdges with
  | none        => s
  | some (k, t) => { (t.writeV x (BitVec.ofNat 8 k)).advance with execState := .running }

/-- The end of a step (R100, R109): `PREV_KEYS <- KEYS` unless the step ends `Faulted`. -/
def State.endStep (s : State) : State :=
  match s.execState with
  | .faulted _ => s
  | _          => { s with prevKeys := s.keys }

/-- The end of a step on a meaning's answer. -/
def endStepResult : Result → Result
  | .next t    => .next t.endStep
  | .fault f   => .fault f
  | .refused r => .refused r

end Sys2Proof.Machine
end

