-- ==== Sys2Proof/Machine/Alu.lean ====
section
/-! DEFINITION. The ALU and register instructions (42_alu.md). Each runs after the pre-advance (R103); every operand is
read from the state the instruction begins in (R104). -/

namespace Sys2Proof.Machine

/-- `6xkk` (R142): `V[x] <- kk`. -/
def execLoadImm (x : Reg) (kk : Byte) (s : State) : Result := .next (s.writeV x kk)

/-- `7xkk` (R143): `V[x] <- (V[x] + kk) mod 256`, no flag. -/
def execAddImm (x : Reg) (kk : Byte) (s : State) : Result := .next (s.writeV x (addResult (s.readV x) kk))

/-- `8xy0` (R148): `V[x] <- V[y]`. -/
def execMove (x y : Reg) (s : State) : Result := .next (s.writeV x (s.readV y))

/-- `8xy1` (R149): `V[x] <- V[x] | V[y]`, no flag. -/
def execOr (x y : Reg) (s : State) : Result := .next (s.writeV x (s.readV x ||| s.readV y))

/-- `8xy2` (R150): `V[x] <- V[x] & V[y]`, no flag. -/
def execAnd (x y : Reg) (s : State) : Result := .next (s.writeV x (s.readV x &&& s.readV y))

/-- `8xy3` (R151): `V[x] <- V[x] ^ V[y]`, no flag. -/
def execXor (x y : Reg) (s : State) : Result := .next (s.writeV x (s.readV x ^^^ s.readV y))

/-- `8xy4` (R152): the sum, with the carry as flag. -/
def execAdd (x y : Reg) (s : State) : Result :=
  .next (s.writeFR x (addResult (s.readV x) (s.readV y)) (addCarry (s.readV x) (s.readV y)))

/-- `8xy5` (R153): `Vx - Vy`, with no-borrow as flag. -/
def execSub (x y : Reg) (s : State) : Result :=
  .next (s.writeFR x (subResult (s.readV x) (s.readV y)) (subNoBorrow (s.readV x) (s.readV y)))

/-- `8xy6` (R156): the shift source halved, with its bit 0 as flag. -/
def execShr (x y : Reg) (s : State) : Result :=
  .next (s.writeFR x (shrResult (s.shiftOperand x y)) (shrOut (s.shiftOperand x y)))

/-- `8xy7` (R157): `Vy - Vx`, with no-borrow as flag. -/
def execSubn (x y : Reg) (s : State) : Result :=
  .next (s.writeFR x (subResult (s.readV y) (s.readV x)) (subNoBorrow (s.readV y) (s.readV x)))

/-- `8xyE` (R158): the shift source doubled mod 256, with its bit 7 as flag. -/
def execShl (x y : Reg) (s : State) : Result :=
  .next (s.writeFR x (shlResult (s.shiftOperand x y)) (shlOut (s.shiftOperand x y)))

/-- `Cxkk` (R160): `V[x] <- draw_byte() & kk`. -/
def execRand (x : Reg) (kk : Byte) (s : State) : Result :=
  .next (s.drawByte.2.writeV x (s.drawByte.1 &&& kk))

end Sys2Proof.Machine
end

