-- ==== Sys2Proof/Machine/Blitter.lean ====
section
/-! DEFINITION. The display instructions: clear and the XOR blitter (44_display.md). Each runs after the pre-advance
(R103). -/

namespace Sys2Proof.Machine

/-- `FB[r][c]` (R30). -/
def Display.pixel (fb : Display) (r : Fin 32) (c : Fin 64) : Bool := fb[r][c]

/-- `FB[r][c] <- FB[r][c] ^ 1` (R192). -/
def Display.toggle (fb : Display) (r : Fin 32) (c : Fin 64) : Display := fb.set r (fb[r].set c (!fb[r][c]))

/-- The pixel that falls at row `r` and column `c`, both unbounded: none under `clip` past an edge, else the one they
reduce to (R192; under `clip` an unclipped pixel reduces to itself). -/
def edgePixel (edge : DrawEdge) (r c : Nat) : Option (Fin 32 × Fin 64) :=
  if edge = .clip ∧ (r ≥ 32 ∨ c ≥ 64) then none
  else some (⟨r % 32, Nat.mod_lt _ (by decide)⟩, ⟨c % 64, Nat.mod_lt _ (by decide)⟩)

/-- The pixels one sprite byte toggles, most significant bit first: bit `7-k` at column `c0 + k` (R191, R192). -/
def rowPixels (edge : DrawEdge) (r c0 : Nat) (b : Byte) : List (Fin 32 × Fin 64) :=
  (List.range 8).filterMap (fun k => if b.getLsbD (7 - k) then edgePixel edge r (c0 + k) else none)

/-- The pixels a sprite toggles, byte `j` at row `r + j` (R191, R192). -/
def spritePixels (edge : DrawEdge) (c0 : Nat) : Nat → List Byte → List (Fin 32 × Fin 64)
  | _, [] => []
  | r, b :: bs => rowPixels edge r c0 b ++ spritePixels edge c0 (r + 1) bs

/-- Toggle pixels in order, collecting `hit`: some pixel was 1 when toggled (R192). -/
def blit : Display → Bool → List (Fin 32 × Fin 64) → Display × Bool
  | fb, hit, [] => (fb, hit)
  | fb, hit, p :: ps => blit (fb.toggle p.1 p.2) (hit || fb.pixel p.1 p.2) ps

/-- The starting column of a sprite: `V[x] mod 64` (R192). -/
def State.spriteCol (s : State) (x : Reg) : Nat := (s.readV x).toNat % 64

/-- The starting row of a sprite: `V[y] mod 32` (R192). -/
def State.spriteRow (s : State) (y : Reg) : Nat := (s.readV y).toNat % 32

/-- Draw the sprite of the bytes, then `VF <- hit` (R192). -/
def State.drawSprite (s : State) (x y : Reg) (bs : List Byte) : State :=
  let out := blit s.fb false (spritePixels s.cfg.drawEdge (s.spriteCol x) (s.spriteRow y) bs)
  { s with fb := out.1 }.writeV VF (flagByte out.2)

/-- `00E0` (R190): every pixel 0. -/
def execClear (s : State) : Result := .next { s with fb := Display.blank }

/-- `Dxyn` (R192): all `n` bytes are checked and read, clipped rows too (D18); with `n = 0` none is (R193). -/
def execDraw (x y : Reg) (n : BitVec 4) (s : State) : Result :=
  completeOr s
    (match s.loadBlock s.i.toNat n.toNat with
    | .ok bs   => .ok (s.drawSprite x y bs)
    | .error f => .error f)

end Sys2Proof.Machine
end

