-- ==== Sys2Proof/Machine/ControlFlow.lean ====
section
/-! DEFINITION. Control transfer (41_control_flow.md). Each runs after the pre-advance, so `s.pc` is `p + 2` (R103). No
target is checked here; the next fetch checks it (R124). -/

namespace Sys2Proof.Machine

/-- `00EE` (R120): `PC <- pop()`. -/
def execRet (s : State) : Result :=
  completeOr s
    (match s.pop with
    | .ok (w, t) => .ok { t with pc := w }
    | .error f   => .error f)

/-- `1nnn` (R121): `PC <- nnn`. -/
def execJump (nnn : BitVec 12) (s : State) : Result := .next { s with pc := nnn.setWidth 16 }

/-- `2nnn` (R122): push the pre-advanced `PC`, then `PC <- nnn`. -/
def execCall (nnn : BitVec 12) (s : State) : Result :=
  completeOr s
    (match s.push s.pc with
    | .ok t    => .ok { t with pc := nnn.setWidth 16 }
    | .error f => .error f)

/-- `Bnnn` (R125): `PC <- (nnn + V0) mod 4096`. -/
def execJumpOffset (nnn : BitVec 12) (s : State) : Result :=
  .next { s with pc := BitVec.ofNat 16 ((nnn.toNat + (s.readV 0).toNat) % 4096) }

/-- `3xkk` (R126): skip if `V[x] = kk`. -/
def execSkipEqImm (x : Reg) (kk : Byte) (s : State) : Result := .next (s.skipIf (s.readV x == kk))

/-- `4xkk` (R127): skip if `V[x] != kk`. -/
def execSkipNeImm (x : Reg) (kk : Byte) (s : State) : Result := .next (s.skipIf (s.readV x != kk))

/-- `5xy0` (R128): skip if `V[x] = V[y]`. -/
def execSkipEqReg (x y : Reg) (s : State) : Result := .next (s.skipIf (s.readV x == s.readV y))

/-- `9xy0` (R129): skip if `V[x] != V[y]`. -/
def execSkipNeReg (x y : Reg) (s : State) : Result := .next (s.skipIf (s.readV x != s.readV y))

end Sys2Proof.Machine
end

