-- ==== Sys2Proof/Machine/IndexMemory.lean ====
section
/-! DEFINITION. Address register and memory instructions (43_index_memory.md). Each runs after the pre-advance (R103).
Addresses are unbounded naturals from `I` (R51). -/

namespace Sys2Proof.Machine

/-- `Annn` (R170): `I <- nnn`. -/
def execLoadI (nnn : BitVec 12) (s : State) : Result := .next { s with i := nnn.setWidth 16 }

/-- `Fx1E` (R171): `I <- (I + V[x]) mod 0x10000`; under `addIFlag = set`, `VF` is 1 iff the new `I` exceeds 0xFFF. -/
def execAddI (x : Reg) (s : State) : Result :=
  match s.cfg.addIFlag with
  | .set       =>
    .next ({ s with i := addIResult s.i (s.readV x) }.writeV VF (flagByte (addIOver (addIResult s.i (s.readV x)))))
  | .unchanged => .next { s with i := addIResult s.i (s.readV x) }

/-- `Fx29` (R172): `I <- V[x] * 5`, the whole `V[x]`. -/
def execFontAddr (x : Reg) (s : State) : Result := .next { s with i := BitVec.ofNat 16 ((s.readV x).toNat * 5) }

/-- Hundreds, tens and units of a byte (R173). -/
def bcdDigits (b : Byte) : List Byte :=
  [BitVec.ofNat 8 (b.toNat / 100), BitVec.ofNat 8 (b.toNat / 10 % 10), BitVec.ofNat 8 (b.toNat % 10)]

/-- `Fx33` (R173): the three digits of `V[x]` to `I`, `I+1`, `I+2`. -/
def execBcd (x : Reg) (s : State) : Result := completeOr s (s.storeBlock s.i.toNat (bcdDigits (s.readV x)))

/-- `Fx55` (R175): `V0..Vx` to `I..I+x`; `I` is unchanged. -/
def execStoreRegs (x : Reg) (s : State) : Result :=
  completeOr s (s.storeBlock s.i.toNat (s.firstRegs (x.toNat + 1)))

/-- `Fx65` (R176): `I..I+x` to `V0..Vx`; `I` is unchanged. -/
def execLoadRegs (x : Reg) (s : State) : Result :=
  completeOr s
    (match s.loadBlock s.i.toNat (x.toNat + 1) with
    | .ok bs   => .ok (s.writeRegs 0 bs)
    | .error f => .error f)

end Sys2Proof.Machine
end

