-- ==== Sys2Proof/Machine/InputTimers.lean ====
section
/-! DEFINITION. Input and timer instructions (45_input_timers.md). Each runs after the pre-advance (R103). -/

namespace Sys2Proof.Machine

/-- `Ex9E` (R211): skip if `KEYS[key(V[x])] = 1`, the level of the current latch. -/
def execSkipKeyDown (x : Reg) (s : State) : Result :=
  completeOr s
    (match keyOf s.cfg (s.readV x) with
    | .ok k    => .ok (s.skipIf (s.keyDown k))
    | .error f => .error f)

/-- `ExA1` (R212): skip if `KEYS[key(V[x])] = 0`. -/
def execSkipKeyUp (x : Reg) (s : State) : Result :=
  completeOr s
    (match keyOf s.cfg (s.readV x) with
    | .ok k    => .ok (s.skipIf (!s.keyDown k))
    | .error f => .error f)

/-- `Fx07` (R213): `V[x] <- DT`. -/
def execGetDelay (x : Reg) (s : State) : Result := .next (s.writeV x s.dt)

/-- `Fx0A` (R214): undo the pre-advance and wait; the executing step does not poll. -/
def execWaitKey (x : Reg) (s : State) : Result := .next { s with pc := s.pc - 2, execState := .awaitingKey x }

/-- `Fx15` (R215): `DT <- V[x]`. -/
def execSetDelay (x : Reg) (s : State) : Result := .next { s with dt := s.readV x }

/-- `Fx18` (R216): `ST <- V[x]`. -/
def execSetSound (x : Reg) (s : State) : Result := .next { s with st := s.readV x }

end Sys2Proof.Machine
end

