-- ==== Sys2Proof/Machine/Step.lean ====
section
/-! DEFINITION. The step transaction (40_cycle.md R100). -/

namespace Sys2Proof.Machine

/-- Execute what the decoder answered (R100, R107). -/
def execOp (op : Op) (s : State) : Result :=
  match op with
  | .known i   => exec i s
  | .unknown w => execUnknown w s

/-- A step in `Running`: fetch, decode, pre-advance, execute, end (R100). A fetch-phase fault leaves `PC` and all else
as it was (R106). -/
def stepRunning (s : State) : Result :=
  match s.fetchPhase with
  | .error f => .next (s.raiseFault f)
  | .ok w    => endStepResult (execOp (decode w) s.advance)

/-- One step (R100): in `Faulted` nothing changes (R111), in `AwaitingKey` a poll (R108), in `Running` an instruction. -/
def step (s : State) : Host.Outcome State Fault Refusal :=
  match s.execState with
  | .faulted _     => .next s
  | .awaitingKey x => .next (s.poll x).endStep
  | .running       => stepRunning s

/-- The state of `s` in which the very next step fetches and runs the table word `w` (log 9, log 10): the word's two
bytes at `PC` (R55). A `PC` the fetch phase would stop on is set to 0x200, and `EXEC` to `Running`. -/
def State.withFetchWord (s : State) (nbits w : Nat) : State :=
  match s.fetchPhase with
  | .ok _    => { s with mem := s.mem.writeBytes s.pc.toNat (tableBytes nbits w), execState := .running }
  | .error _ =>
    { s with mem := s.mem.writeBytes programBase (tableBytes nbits w), pc := 0x200, execState := .running }

end Sys2Proof.Machine
end

