-- ==== Sys2Proof/Machine/Interface.lean ====
section
/-! DEFINITION. The host's transactions (60_exceptions.md R240 to R247, 70_reset_and_hazards.md R260): everything the
outside world can do to the core. -/

namespace Sys2Proof.Machine

/-- `MAX_IMAGE` (R6). -/
abbrev maxImage : Nat := 0xE00

/-- The byte `load` puts at an address (R260, R261): the font, the image, and `initFill` everywhere else. -/
def launchByte (cfg : Config) (initFill : Nat → Byte) (image : List Byte) (a : Nat) : Byte :=
  if h : a < 80 then cfg.font[a]
  else if programBase ≤ a ∧ a < programBase + image.length then image.getD (a - programBase) 0
  else initFill a

/-- `load(image)` (R260): the whole state built anew, or `ProgramTooLarge` and no state (D28). The configuration is the
instance's (R39) and the draws are the model's own stream (log 19); `initFill` is an argument of the launch (R261). -/
def State.load (cfg : Config) (draws : Draws) (initFill : Nat → Byte) (image : List Byte) : Except Fault State :=
  if image.length > maxImage then .error .programTooLarge
  else
    .ok { State.reset with
      cfg := cfg
      mem := Memory.ofBytes (launchByte cfg initFill image)
      draws := draws }

/-- One timer's decrement, floored at 0 (R240). -/
def decTimer (t : Byte) : Byte := if t.toNat > 0 then t - 1 else t

/-- `tick()` (R240): both timers, in `Running` and `AwaitingKey`; nothing in `Faulted` (D22). -/
def State.tick (s : State) : State :=
  match s.execState with
  | .faulted _ => s
  | _          => { s with dt := decTimer s.dt, st := decTimer s.st }

/-- `setKeys(k)` (R243): `KEYS <- k`, in every execution state. -/
def State.setKeys (s : State) (k : BitVec 16) : State := { s with keys := k }

/-- `readFb()` (R244). -/
def State.readFb (s : State) : Display := s.fb

/-- `soundOn = (ST > 0)` (R245). -/
def State.soundOn (s : State) : Bool := decide (s.st.toNat > 0)

/-- The transactions of R247. -/
inductive Transaction
  | load (initFill : Nat → Byte) (image : List Byte)
  | step
  | tick
  | setKeys (k : BitVec 16)
  | readFb
  | readSound
  | readExec

/-- What the host gets back (R247). -/
inductive Reply
  /-- `ok` of `load`, and of the transactions that return nothing. -/
  | done
  /-- The execution state: the answer of `step` (R113) and of reading `EXEC`. -/
  | exec (e : ExecState)
  | frame (fb : Display)
  | sound (on : Bool)
  deriving DecidableEq, Repr

/-- The reply of a step (R113): `EXEC` as it stands at its end. -/
def stepReply : Result → Host.Outcome (Reply × State) Fault Refusal
  | .next t    => .next (.exec t.execState, t)
  | .fault f   => .fault f
  | .refused r => .refused r

/-- One transaction (R247): the reply and the state after. A load that builds no state answers the fault. -/
def transact (t : Transaction) (s : State) : Host.Outcome (Reply × State) Fault Refusal :=
  match t with
  | .load initFill image =>
    match State.load s.cfg s.draws initFill image with
    | .ok s'   => .next (.done, s')
    | .error f => .fault f
  | .step      => stepReply (step s)
  | .tick      => .next (.done, s.tick)
  | .setKeys k => .next (.done, s.setKeys k)
  | .readFb    => .next (.frame s.readFb, s)
  | .readSound => .next (.sound s.soundOn, s)
  | .readExec  => .next (.exec s.execState, s)

/-- A host schedule (R246): transactions one at a time, to the state after the last, or to the first load that builds
no state. -/
def runHost : List Transaction → State → Host.Outcome State Fault Refusal
  | [], s => .next s
  | t :: ts, s =>
    match transact t s with
    | .next (_, s') => runHost ts s'
    | .fault f      => .fault f
    | .refused r    => .refused r

end Sys2Proof.Machine
end

