-- ==== Sys2Proof/Safety.lean ====
section
/-! DEFINITION. The terms the claims use: what an instruction may change (40_cycle.md R105), the end of a run (R112),
the invariant of a machine, and the states a host can bring it to (60_exceptions.md R246). -/

namespace Sys2Proof.Machine

/-! ### Footprints (R105) -/

/-- What may change: registers, bytes of memory, and each other component by a switch. -/
structure Footprint where
  regs  : List Reg := []
  bytes : List Nat := []
  i     : Bool := false
  pc    : Bool := false
  stack : Bool := false
  dt    : Bool := false
  st    : Bool := false
  fb    : Bool := false
  exec  : Bool := false
  draws : Bool := false
  deriving DecidableEq, Repr

/-- Everything outside the footprint is as it was. The configuration (R39) and the two key latches (R31, R109) are in
no instruction's footprint. Memory is compared by reading each byte. -/
structure Unchanged (f : Footprint) (s t : State) : Prop where
  cfg      : t.cfg = s.cfg
  keys     : t.keys = s.keys
  prevKeys : t.prevKeys = s.prevKeys
  regs     : ∀ r, r ∉ f.regs → t.readV r = s.readV r
  bytes    : ∀ a, a ∉ f.bytes → t.mem.read a = s.mem.read a
  i        : f.i = false → t.i = s.i
  pc       : f.pc = false → t.pc = s.pc
  stack    : f.stack = false → t.stack = s.stack
  sp       : f.stack = false → t.sp = s.sp
  dt       : f.dt = false → t.dt = s.dt
  st       : f.st = false → t.st = s.st
  fb       : f.fb = false → t.fb = s.fb
  exec     : f.exec = false → t.execState = s.execState
  draws    : f.draws = false → t.draws = s.draws

/-- The registers `V0..Vx` (R175, R176). -/
def regsUpTo (x : Reg) : List Reg := (List.range (x.toNat + 1)).map (BitVec.ofNat 4)

/-- The addresses a store of `count` bytes from `I` stores to (R57). -/
def storeAddrs (s : State) (count : Nat) : List Nat := (List.range count).map (s.i.toNat + ·)

/-- What each instruction may change when it runs from `s`: the tables of R22, R25, R37 and R57. `exec` stands where the
instruction can raise a fault or starts a wait (R32). The program counter's switch is off where an instruction leaves it
at the pre-advanced value. -/
def footprint : Instr → State → Footprint
  | .clear, _         => { fb := true }
  | .ret, _           => { pc := true, stack := true, exec := true }
  | .jump _, _        => { pc := true }
  | .call _, _        => { pc := true, stack := true, exec := true }
  | .skipEqImm _ _, _ => { pc := true }
  | .skipNeImm _ _, _ => { pc := true }
  | .skipEqReg _ _, _ => { pc := true }
  | .skipNeReg _ _, _ => { pc := true }
  | .loadImm x _, _   => { regs := [x] }
  | .addImm x _, _    => { regs := [x] }
  | .move x _, _      => { regs := [x] }
  | .or x _, _        => { regs := [x] }
  | .and x _, _       => { regs := [x] }
  | .xor x _, _       => { regs := [x] }
  | .add x _, _       => { regs := [x, VF] }
  | .sub x _, _       => { regs := [x, VF] }
  | .shr x _, _       => { regs := [x, VF] }
  | .subn x _, _      => { regs := [x, VF] }
  | .shl x _, _       => { regs := [x, VF] }
  | .loadI _, _       => { i := true }
  | .jumpOffset _, _  => { pc := true }
  | .rand x _, _      => { regs := [x], draws := true }
  | .draw _ _ _, _    => { regs := [VF], fb := true, exec := true }
  | .skipKeyDown _, _ => { pc := true, exec := true }
  | .skipKeyUp _, _   => { pc := true, exec := true }
  | .getDelay x, _    => { regs := [x] }
  | .waitKey _, _     => { pc := true, exec := true }
  | .setDelay _, _    => { dt := true }
  | .setSound _, _    => { st := true }
  | .addI _, s        => { i := true, regs := if s.cfg.addIFlag = .set then [VF] else [] }
  | .fontAddr _, _    => { i := true }
  | .bcd _, s         => { bytes := storeAddrs s 3, exec := true }
  | .storeRegs x, s   => { bytes := storeAddrs s (x.toNat + 1), exec := true }
  | .loadRegs x, _    => { regs := regsUpTo x, exec := true }

/-- What a flag-writing class-8 instruction leaves in `V[x]` and `VF` (R141): result and flag each in its register, and
with `x = F` the one `vfOrder` writes last. -/
def ResultAndFlag (s t : State) (x : Reg) (result : Nat) (flag : Prop) [Decidable flag] : Prop :=
  (x ≠ VF → (t.readV x).toNat = result ∧ (t.readV VF).toNat = if flag then 1 else 0) ∧
  (x = VF → s.cfg.vfOrder = .flagThenResult → (t.readV VF).toNat = result) ∧
  (x = VF → s.cfg.vfOrder = .resultThenFlag → (t.readV VF).toNat = if flag then 1 else 0)

/-- The decimal digit of a byte that `Fx33` stores at `I + k`: hundreds, tens, units (R173). -/
def decimalDigit (b : Byte) : Nat → Nat
  | 0 => b.toNat / 100
  | 1 => b.toNat / 10 % 10
  | _ => b.toNat % 10

/-- The next step from `s` fetches and executes `i` (R100). -/
def State.executes (s : State) (i : Instr) : Prop :=
  s.execState = .running ∧ ∃ w, s.fetchPhase = .ok w ∧ decode w = .known i

/-- The step from `s` finds a key edge on `k` (R108). -/
def State.keyEdge (s : State) (k : Nat) : Prop :=
  k < 16 ∧ s.keys.getLsbD k = true ∧ s.prevKeys.getLsbD k = false

/-! ### The blitter's pixels (R191, R192) -/

/-- The sprite byte `j` of the `n` bytes from `I`. -/
def State.spriteByte (s : State) (j : Nat) : Byte := s.mem.read (s.i.toNat + j)

/-- The sprite of `Dxyn` covers the pixel (`r`, `c`): some 1 bit of some byte falls on it, after `drawEdge` (R192). -/
def State.covers (s : State) (x y : Reg) (n : BitVec 4) (r : Fin 32) (c : Fin 64) : Prop :=
  ∃ j k : Nat, j < n.toNat ∧ k < 8 ∧ (s.spriteByte j).getLsbD (7 - k) = true ∧
    match s.cfg.drawEdge with
    | .clip => s.spriteRow y + j = r.val ∧ s.spriteCol x + k = c.val
    | .wrap => (s.spriteRow y + j) % 32 = r.val ∧ (s.spriteCol x + k) % 64 = c.val

/-! ### The invariant of a machine -/

/-- A return address a call can have pushed (R26, R120): `p + 2` of a fetched `p`, which under `pcCheck = strict` is
even and at least 0x202. -/
def isReturnAddress (cfg : Config) (w : Word) : Prop :=
  2 ≤ w.toNat ∧ w.toNat ≤ 0x1000 ∧ (cfg.pcCheck = .strict → w.toNat % 2 = 0 ∧ 0x202 ≤ w.toNat)

/-- What holds between transactions: memory in its canonical form; `PC` at most 0x1002 (R26); every stacked entry below
`SP` a return address (R26, R120); and while a key is awaited, `PC` at the `Fx0A` that waits (R108, R214). -/
structure State.Inv (s : State) : Prop where
  mem     : s.mem.wf
  pc      : s.pc.toNat ≤ 0x1002
  stack   : ∀ k : Fin 16, k.val < s.sp.val → isReturnAddress s.cfg s.stack[k]
  waiting : ∀ x, s.execState = .awaitingKey x → s.fetchPhase = .ok (encode (.waitKey x))

/-! ### Runs -/

/-- The states a host can bring a machine to: a launch of some image with some configuration, initial fill and draws,
and then any schedule of transactions (R246, R263). -/
def Reachable (s : State) : Prop :=
  ∃ cfg draws initFill image s0 ts, State.load cfg draws initFill image = .ok s0 ∧ runHost ts s0 = .next s

/-- Final-good (R112): `Running` at a word that jumps to its own address. -/
def State.finalGood (s : State) : Prop := s.execState = .running ∧ s.fetchPhase = .ok (0x1000#16 ||| s.pc)

/-- Final-bad (R112): `Faulted`. -/
def State.finalBad (s : State) : Prop := ∃ f, s.execState = .faulted f

/-- Blocked on the host (R112): `AwaitingKey`. -/
def State.blockedOnHost (s : State) : Prop := ∃ x, s.execState = .awaitingKey x

end Sys2Proof.Machine
end

