-- ==== Sys2Proof/Certificates/Slice0/Obligations.lean ====
section
/-! DEFINITION. The statements for the provers. Each docstring names the rule of spec/ it formalises. A result statement
also says where the instruction's word decodes to it, what it leaves unchanged (`Unchanged`, one footprint), and that it
completes: `exec` answers a next state under the hypotheses written on the state and operands alone. -/

open Sys2Proof Sys2Proof.Machine

/-! ### Reset -/

/-- R38, R260, R261: `load` builds the launch state, for every configuration, initial fill and image; an image longer
than 0xE00 bytes builds none. The `load` transaction answers that state, or the fault. The free fill, the two latches' 0
and "no state" are the spec's own choices (D19, D27, D28); that the fault answers no state is log 13, and that the
transaction takes the instance's configuration and the model's draws from the state before it is log 19. -/
def Obligations.LoadBuildsTheLaunchState : Prop :=
  ∀ (cfg : Config) (draws : Draws) (initFill : Nat → Byte) (image : List Byte),
    (image.length > 0xE00 → State.load cfg draws initFill image = .error .programTooLarge) ∧
    (image.length ≤ 0xE00 → ∃ s, State.load cfg draws initFill image = .ok s ∧
      s.cfg = cfg ∧
      (∀ (a : Nat) (h : a < 80), s.mem.read a = cfg.font[a]) ∧
      (∀ (j : Nat) (h : j < image.length), s.mem.read (0x200 + j) = image[j]) ∧
      (∀ a : Nat, 80 ≤ a → a < 4096 → (a < 0x200 ∨ 0x200 + image.length ≤ a) → s.mem.read a = initFill a) ∧
      (∀ r, s.readV r = 0) ∧ s.i = 0 ∧ s.pc = 0x200 ∧ s.sp = 0 ∧ (∀ k : Fin 16, s.stack[k] = 0) ∧
      s.dt = 0 ∧ s.st = 0 ∧ (∀ r c, s.fb.pixel r c = false) ∧ s.keys = 0 ∧ s.prevKeys = 0 ∧
      s.execState = .running) ∧
    (∀ s : State,
      (image.length > 0xE00 → transact (.load initFill image) s = .fault .programTooLarge) ∧
      (image.length ≤ 0xE00 → ∃ t, State.load s.cfg s.draws initFill image = .ok t ∧
        transact (.load initFill image) s = .next (.done, t)))

/-- The model's choice (log 2, log 4, log 7): `State.reset` is the launch with an empty image, `initFill` 0, the default
configuration and fresh draws. -/
def Obligations.ResetIsTheDefaultLaunch : Prop :=
  State.load defaultConfig Draws.fresh (fun _ => 0) [] = .ok State.reset

/-- The invariant holds right after reset. -/
def Obligations.ResetMeetsInvariant : Prop := State.reset.Inv

/-! ### Encoding -/

/-- R76: words written out from the table's patterns decode to the instructions they stand for, one of each format. -/
def Obligations.SampleWordsDecode : Prop :=
  decode 0b0000000011100000#16 = .known .clear ∧
  decode 0b0010001100000100#16 = .known (.call 0x304#12) ∧
  decode 0b0111101001111111#16 = .known (.addImm 0xA#4 0x7F#8) ∧
  decode 0b1000000100101110#16 = .known (.shl 0x1#4 0x2#4) ∧
  decode 0b1101000100100101#16 = .known (.draw 0x1#4 0x2#4 0x5#4) ∧
  decode 0b1110001110100001#16 = .known (.skipKeyUp 0x3#4) ∧
  decode 0b1111011000110011#16 = .known (.bcd 0x6#4) ∧
  decode 0b1001100110011001#16 = .unknown 0x9999#16

/-- R71: the six fields of a word. -/
def Obligations.FieldsOfAWord : Prop :=
  ∀ w : Word,
    (Word.opClass w).toNat = w.toNat / 2 ^ 12 ∧
    (Word.fieldX w).toNat = w.toNat / 2 ^ 8 % 16 ∧
    (Word.fieldY w).toNat = w.toNat / 2 ^ 4 % 16 ∧
    (Word.fieldN w).toNat = w.toNat % 16 ∧
    (Word.fieldKK w).toNat = w.toNat % 256 ∧
    (Word.fieldNNN w).toNat = w.toNat % 4096

/-- R75, R76, R78: decode of encode is the instruction, with every operand at every value its field admits. -/
def Obligations.DecodeOfEncode : Prop := ∀ i : Instr, decode (encode i) = .known i

/-- R74 to R77: every word has one meaning. A word no row covers decodes to `UNKNOWN` of itself; every other word
decodes to an instruction whose encoding it is. -/
def Obligations.EveryWordHasOneMeaning : Prop :=
  ∀ w : Word,
    (isInstructionWord w = false → decode w = .unknown w) ∧
    (isInstructionWord w = true → ∃ i, decode w = .known i ∧ encode i = w)

/-- R76, where the spec marks it as derived from R75: at most one row of the table matches any word. -/
def Obligations.RowsAreDisjoint : Prop :=
  ∀ (w : Word) (r r' : Row), r ∈ opcodeTable → r' ∈ opcodeTable → r.covers w = true → r'.covers w = true → r = r'

/-! ### The step -/

/-- R100, R103, R109: a step in `Running` whose word decodes to `i` is `exec i` after the pre-advance, and then
`PREV_KEYS <- KEYS` unless the instruction faulted. -/
def Obligations.StepRunsTheDecodedInstruction : Prop :=
  ∀ (s : State) (w : Word) (i : Instr), s.execState = .running → s.fetchPhase = .ok w → decode w = .known i →
    ∃ t, exec i { s with pc := s.pc + 2 } = .next t ∧
      ((∃ f, t.execState = .faulted f) → step s = .next t) ∧
      ((∀ f, t.execState ≠ .faulted f) → step s = .next { t with prevKeys := t.keys })

/-- R107: a word no row covers faults with `UnknownOpcode`, the pre-advance kept and nothing else changed. -/
def Obligations.UnknownWordFaults : Prop :=
  ∀ (s : State) (w : Word), s.execState = .running → s.fetchPhase = .ok w → isInstructionWord w = false →
    step s = .next { s with pc := s.pc + 2, execState := .faulted .unknownOpcode }

/-- R101, R54: the fetch phase. The bound is checked first, then the program counter invariant under `strict` (the
spec's own choices D5, D12); a fetch that passes reads the two bytes at `PC`, the first as the high byte. -/
def Obligations.FetchPhaseChecksAndReads : Prop :=
  ∀ s : State, s.execState = .running →
    (s.pc.toNat + 1 ≥ 4096 → step s = .next { s with execState := .faulted .addressOutOfRange }) ∧
    (s.pc.toNat + 1 < 4096 → s.cfg.pcCheck = .strict → (s.pc.toNat % 2 = 1 ∨ s.pc.toNat < 0x200) →
      step s = .next { s with execState := .faulted .pcInvariant }) ∧
    (s.pc.toNat + 1 < 4096 → (s.cfg.pcCheck = .bounds ∨ (s.pc.toNat % 2 = 0 ∧ 0x200 ≤ s.pc.toNat)) →
      s.fetchPhase = .ok (s.mem.read s.pc.toNat ++ s.mem.read (s.pc.toNat + 1)))

/-- R106, R233 (the spec's own choice D11): faults are precise. After a fetch-phase fault only `EXEC` differs; after an
execute-phase fault only `EXEC` and the pre-advanced `PC`. -/
def Obligations.FaultsArePrecise : Prop :=
  ∀ (s t : State) (f : Fault), s.execState = .running → step s = .next t → t.execState = .faulted f →
    ((∃ g, s.fetchPhase = .error g) → t = { s with execState := .faulted f }) ∧
    ((∃ w, s.fetchPhase = .ok w) → t = { s with pc := s.pc + 2, execState := .faulted f })

/-- R230, its rows for the execute phase (the last two reasons are the spec's own, D6 and D7): which instruction raises
which reason, and when. -/
def Obligations.FaultCauses : Prop :=
  ∀ (i : Instr) (s t : State) (f : Fault), (∀ g, s.execState ≠ .faulted g) → exec i s = .next t →
    t.execState = .faulted f →
      (f = .stackOverflow ∧ s.sp.val = 16 ∧ ∃ nnn, i = .call nnn) ∨
      (f = .stackUnderflow ∧ s.sp.val = 0 ∧ i = .ret) ∨
      (f = .keyIndexOutOfRange ∧ s.cfg.keyIndex = .fault ∧
        ∃ x, 16 ≤ (s.readV x).toNat ∧ (i = .skipKeyDown x ∨ i = .skipKeyUp x)) ∨
      (f = .fontWrite ∧ s.cfg.lowWrite = .fault ∧ s.i.toNat < 0x200 ∧ ∃ x, i = .bcd x ∨ i = .storeRegs x) ∨
      (f = .addressOutOfRange ∧
        ((∃ x, i = .bcd x ∧ s.i.toNat + 2 ≥ 4096) ∨
          (∃ x, (i = .storeRegs x ∨ i = .loadRegs x) ∧ s.i.toNat + x.toNat ≥ 4096) ∨
          (∃ x y n, i = .draw x y n ∧ 0 < n.toNat ∧ s.i.toNat + n.toNat - 1 ≥ 4096)))

/-- R111, R234: in `Faulted` a step changes nothing and returns the same fault, a tick changes nothing (R240, the spec's
own choice D22), no transaction but `load` changes anything but the latch (R243), and a `load` builds a fresh state that
is `Running`, from the instance's configuration and the model's draws (log 19). -/
def Obligations.OnlyLoadLeavesFaulted : Prop :=
  ∀ (s : State) (f : Fault), s.execState = .faulted f →
    transact .step s = .next (.exec (.faulted f), s) ∧ step s = .next s ∧ s.tick = s ∧
    (∀ (tr : Transaction) (r : Reply) (t : State), (∀ fill image, tr ≠ .load fill image) →
      transact tr s = .next (r, t) → t = { s with keys := t.keys }) ∧
    (∀ (fill : Nat → Byte) (image : List Byte) (r : Reply) (t : State),
      transact (.load fill image) s = .next (r, t) →
        State.load s.cfg s.draws fill image = .ok t ∧ t.execState = .running)

/-- R113: every step answers a next state (a fault is one: log 8) and returns `EXEC` as it stands there (the spec's own
choice D35). -/
def Obligations.StepReturnsExec : Prop :=
  ∀ s : State, ∃ t, step s = .next t ∧ transact .step s = .next (.exec t.execState, t)

/-- R106, R109, R31 (the previous latch is the spec's own choice D9): a step that does not end `Faulted` ends with
`PREV_KEYS = KEYS`, one that does keeps `PREV_KEYS` (log 20, where R34 reads otherwise), and no step changes `KEYS`. -/
def Obligations.StepEndsWithPrevKeys : Prop :=
  ∀ s t : State, step s = .next t →
    t.keys = s.keys ∧
    ((∀ f, t.execState ≠ .faulted f) → t.prevKeys = s.keys) ∧
    ((∃ f, t.execState = .faulted f) → t.prevKeys = s.prevKeys)

/-- R108, but for the choice among several edges, which `PollAdmitsEveryEdge` states. With no key edge only `PREV_KEYS`
moves (R109, D9); with one, the code of a key with an edge is captured in `V[x]`, `PC` advances and `EXEC` is
`Running`. The footprint's draws are the model's own (log 5, log 6). -/
def Obligations.PollCapturesAnEdge : Prop :=
  ∀ (s : State) (x : Reg), s.execState = .awaitingKey x →
    ((∀ k, ¬ s.keyEdge k) → step s = .next { s with prevKeys := s.keys }) ∧
    ((∃ k, s.keyEdge k) → ∃ k t, s.keyEdge k ∧ step s = .next t ∧
      (t.readV x).toNat = k ∧ t.pc = s.pc + 2 ∧ t.execState = .running ∧
      Unchanged { regs := [x], pc := true, exec := true, draws := true } { s with prevKeys := s.keys } t)

/-- R108, D10: every key with an edge can be the captured one, by some value of the model's draws (log 5, log 6). -/
def Obligations.PollAdmitsEveryEdge : Prop :=
  ∀ (s : State) (x : Reg) (k : Nat), s.execState = .awaitingKey x → s.keyEdge k →
    ∃ d t, step { s with draws := d } = .next t ∧ (t.readV x).toNat = k ∧ t.execState = .running

/-! ### ALU -/

/-- R142, R143: `6xkk` and `7xkk`. -/
def Obligations.LoadAndAddImmediate : Prop :=
  ∀ (x : Reg) (kk : Byte) (s : State),
    decode (0x6#4 ++ (x ++ kk : BitVec 12) : BitVec 16) = .known (.loadImm x kk) ∧
    decode (0x7#4 ++ (x ++ kk : BitVec 12) : BitVec 16) = .known (.addImm x kk) ∧
    (∃ t, exec (.loadImm x kk) s = .next t ∧ t.readV x = kk ∧ Unchanged { regs := [x] } s t) ∧
    (∃ t, exec (.addImm x kk) s = .next t ∧ (t.readV x).toNat = ((s.readV x).toNat + kk.toNat) % 256 ∧
      Unchanged { regs := [x] } s t)

/-- R148 to R151: `8xy0` move, `8xy1` or, `8xy2` and, `8xy3` xor; `VF` is a destination or unchanged (the spec's own
choice D4, log 14). -/
def Obligations.MoveAndLogic : Prop :=
  ∀ (x y : Reg) (s : State),
    decode (0x8#4 ++ (x ++ (y ++ 0x0#4 : BitVec 8) : BitVec 12) : BitVec 16) = .known (.move x y) ∧
    decode (0x8#4 ++ (x ++ (y ++ 0x1#4 : BitVec 8) : BitVec 12) : BitVec 16) = .known (.or x y) ∧
    decode (0x8#4 ++ (x ++ (y ++ 0x2#4 : BitVec 8) : BitVec 12) : BitVec 16) = .known (.and x y) ∧
    decode (0x8#4 ++ (x ++ (y ++ 0x3#4 : BitVec 8) : BitVec 12) : BitVec 16) = .known (.xor x y) ∧
    (∃ t, exec (.move x y) s = .next t ∧ t.readV x = s.readV y ∧ Unchanged { regs := [x] } s t) ∧
    (∃ t, exec (.or x y) s = .next t ∧ t.readV x = s.readV x ||| s.readV y ∧ Unchanged { regs := [x] } s t) ∧
    (∃ t, exec (.and x y) s = .next t ∧ t.readV x = s.readV x &&& s.readV y ∧ Unchanged { regs := [x] } s t) ∧
    (∃ t, exec (.xor x y) s = .next t ∧ t.readV x = s.readV x ^^^ s.readV y ∧ Unchanged { regs := [x] } s t)

/-- R152: `8xy4`, sum and carry. With `x = F` the order of the two writes is R141's `vfOrder`, the spec's own D3. -/
def Obligations.AddWithCarryFlag : Prop :=
  ∀ (x y : Reg) (s : State),
    decode (0x8#4 ++ (x ++ (y ++ 0x4#4 : BitVec 8) : BitVec 12) : BitVec 16) = .known (.add x y) ∧
    ∃ t, exec (.add x y) s = .next t ∧
      ResultAndFlag s t x (((s.readV x).toNat + (s.readV y).toNat) % 256)
        ((s.readV x).toNat + (s.readV y).toNat > 255) ∧
      Unchanged { regs := [x, VF] } s t

/-- R153, R157: `8xy5` and `8xy7`, difference and no-borrow. With `x = F` the order of the two writes is R141's
`vfOrder`, the spec's own D3. -/
def Obligations.SubtractWithNoBorrowFlag : Prop :=
  ∀ (x y : Reg) (s : State),
    decode (0x8#4 ++ (x ++ (y ++ 0x5#4 : BitVec 8) : BitVec 12) : BitVec 16) = .known (.sub x y) ∧
    decode (0x8#4 ++ (x ++ (y ++ 0x7#4 : BitVec 8) : BitVec 12) : BitVec 16) = .known (.subn x y) ∧
    (∃ t, exec (.sub x y) s = .next t ∧
      ResultAndFlag s t x (((s.readV x).toNat + 256 - (s.readV y).toNat) % 256)
        ((s.readV x).toNat ≥ (s.readV y).toNat) ∧
      Unchanged { regs := [x, VF] } s t) ∧
    (∃ t, exec (.subn x y) s = .next t ∧
      ResultAndFlag s t x (((s.readV y).toNat + 256 - (s.readV x).toNat) % 256)
        ((s.readV y).toNat ≥ (s.readV x).toNat) ∧
      Unchanged { regs := [x, VF] } s t)

/-- R156, R158: `8xy6` and `8xyE` shift `V[x]` or, under `shiftSrc = vy`, `V[y]` (D15); the flag is the bit shifted
out. With `x = F` the order of the two writes is R141's `vfOrder`, the spec's own D3. -/
def Obligations.ShiftsWithBitOut : Prop :=
  ∀ (x y : Reg) (s : State) (a : Nat),
    ((s.cfg.shiftSrc = .vx ∧ a = (s.readV x).toNat) ∨ (s.cfg.shiftSrc = .vy ∧ a = (s.readV y).toNat)) →
    decode (0x8#4 ++ (x ++ (y ++ 0x6#4 : BitVec 8) : BitVec 12) : BitVec 16) = .known (.shr x y) ∧
    decode (0x8#4 ++ (x ++ (y ++ 0xE#4 : BitVec 8) : BitVec 12) : BitVec 16) = .known (.shl x y) ∧
    (∃ t, exec (.shr x y) s = .next t ∧ ResultAndFlag s t x (a / 2) (a % 2 = 1) ∧
      Unchanged { regs := [x, VF] } s t) ∧
    (∃ t, exec (.shl x y) s = .next t ∧ ResultAndFlag s t x (a * 2 % 256) (a / 128 = 1) ∧
      Unchanged { regs := [x, VF] } s t)

/-- R160, D21: `Cxkk` writes some byte masked by `kk`, and every byte `b` with `b & ~kk = 0` can be the result, by some
value of the model's draws, which are its own (log 5). -/
def Obligations.RandomMaskedByte : Prop :=
  ∀ (x : Reg) (kk : Byte) (s : State),
    decode (0xC#4 ++ (x ++ kk : BitVec 12) : BitVec 16) = .known (.rand x kk) ∧
    (∃ t b, exec (.rand x kk) s = .next t ∧ t.readV x = b &&& kk ∧ Unchanged { regs := [x], draws := true } s t) ∧
    (∀ b : Byte, b &&& ~~~kk = 0 → ∃ d t, exec (.rand x kk) { s with draws := d } = .next t ∧ t.readV x = b)

/-! ### Control transfer -/

/-- R121, R125: `1nnn` and `Bnnn`. -/
def Obligations.JumpTargets : Prop :=
  ∀ (nnn : BitVec 12) (s : State),
    decode (0x1#4 ++ nnn : BitVec 16) = .known (.jump nnn) ∧
    decode (0xB#4 ++ nnn : BitVec 16) = .known (.jumpOffset nnn) ∧
    (∃ t, exec (.jump nnn) s = .next t ∧ t.pc.toNat = nnn.toNat ∧ Unchanged { pc := true } s t) ∧
    (∃ t, exec (.jumpOffset nnn) s = .next t ∧ t.pc.toNat = (nnn.toNat + (s.readV 0).toNat) % 4096 ∧
      Unchanged { pc := true } s t)

/-- R122: `2nnn` pushes the `PC` it finds, which a step has pre-advanced, and jumps; with 16 entries it faults. -/
def Obligations.CallPushesAndJumps : Prop :=
  ∀ (nnn : BitVec 12) (s : State),
    decode (0x2#4 ++ nnn : BitVec 16) = .known (.call nnn) ∧
    (s.sp.val < 16 → ∃ t, exec (.call nnn) s = .next t ∧ t.pc.toNat = nnn.toNat ∧ t.sp.val = s.sp.val + 1 ∧
      (∀ k : Fin 16, t.stack[k] = if k.val = s.sp.val then s.pc else s.stack[k]) ∧
      Unchanged { pc := true, stack := true } s t) ∧
    (s.sp.val = 16 → exec (.call nnn) s = .next { s with execState := .faulted .stackOverflow })

/-- R120: `00EE` pops into `PC`; on an empty stack it faults. The popped entry stays in the array (the spec's own choice
D30, log 15). -/
def Obligations.ReturnPops : Prop :=
  ∀ s : State,
    decode 0x00EE#16 = .known .ret ∧
    (0 < s.sp.val → ∃ t, exec .ret s = .next t ∧ (∀ k : Fin 16, k.val + 1 = s.sp.val → t.pc = s.stack[k]) ∧
      t.sp.val + 1 = s.sp.val ∧ t.stack = s.stack ∧ Unchanged { pc := true, stack := true } s t) ∧
    (s.sp.val = 0 → exec .ret s = .next { s with execState := .faulted .stackUnderflow })

/-- 95_test_vectors.md S7: a return at once after a call, wherever the call went, restores `PC`, the depth and every
entry below it. -/
def Obligations.ReturnUndoesCall : Prop :=
  ∀ (nnn : BitVec 12) (s t : State) (p : Word), s.sp.val < 16 → exec (.call nnn) s = .next t →
    ∃ u, exec .ret { t with pc := p } = .next u ∧ u.pc = s.pc ∧ u.sp = s.sp ∧
      ∀ k : Fin 16, k.val < s.sp.val → u.stack[k] = s.stack[k]

/-- R126 to R129: the four compare-and-skip instructions. -/
def Obligations.CompareAndSkip : Prop :=
  ∀ (x y : Reg) (kk : Byte) (s : State),
    decode (0x3#4 ++ (x ++ kk : BitVec 12) : BitVec 16) = .known (.skipEqImm x kk) ∧
    decode (0x4#4 ++ (x ++ kk : BitVec 12) : BitVec 16) = .known (.skipNeImm x kk) ∧
    decode (0x5#4 ++ (x ++ (y ++ 0x0#4 : BitVec 8) : BitVec 12) : BitVec 16) = .known (.skipEqReg x y) ∧
    decode (0x9#4 ++ (x ++ (y ++ 0x0#4 : BitVec 8) : BitVec 12) : BitVec 16) = .known (.skipNeReg x y) ∧
    (∃ t, exec (.skipEqImm x kk) s = .next t ∧ t.pc = (if s.readV x = kk then s.pc + 2 else s.pc) ∧
      Unchanged { pc := true } s t) ∧
    (∃ t, exec (.skipNeImm x kk) s = .next t ∧ t.pc = (if s.readV x ≠ kk then s.pc + 2 else s.pc) ∧
      Unchanged { pc := true } s t) ∧
    (∃ t, exec (.skipEqReg x y) s = .next t ∧ t.pc = (if s.readV x = s.readV y then s.pc + 2 else s.pc) ∧
      Unchanged { pc := true } s t) ∧
    (∃ t, exec (.skipNeReg x y) s = .next t ∧ t.pc = (if s.readV x ≠ s.readV y then s.pc + 2 else s.pc) ∧
      Unchanged { pc := true } s t)

/-! ### Address register and memory -/

/-- R170, R172: `Annn` and `Fx29`. -/
def Obligations.SetAddressRegister : Prop :=
  ∀ (nnn : BitVec 12) (x : Reg) (s : State),
    decode (0xA#4 ++ nnn : BitVec 16) = .known (.loadI nnn) ∧
    decode (0xF#4 ++ (x ++ 0x29#8 : BitVec 12) : BitVec 16) = .known (.fontAddr x) ∧
    (∃ t, exec (.loadI nnn) s = .next t ∧ t.i.toNat = nnn.toNat ∧ Unchanged { i := true } s t) ∧
    (∃ t, exec (.fontAddr x) s = .next t ∧ t.i.toNat = (s.readV x).toNat * 5 ∧ Unchanged { i := true } s t)

/-- R171: `Fx1E` adds modulo 0x10000 (the spec's own choice D13), and under `addIFlag = set` (D14) `VF` tells whether
the new `I` exceeds 0xFFF. -/
def Obligations.AddToAddressRegister : Prop :=
  ∀ (x : Reg) (s : State),
    decode (0xF#4 ++ (x ++ 0x1E#8 : BitVec 12) : BitVec 16) = .known (.addI x) ∧
    ∃ t, exec (.addI x) s = .next t ∧ t.i.toNat = (s.i.toNat + (s.readV x).toNat) % 0x10000 ∧
      (s.cfg.addIFlag = .set → (t.readV VF).toNat = if t.i.toNat > 0xFFF then 1 else 0) ∧
      (s.cfg.addIFlag = .unchanged → t.readV VF = s.readV VF) ∧
      Unchanged { i := true, regs := [VF] } s t

/-- R173: `Fx33` stores the three decimal digits at `I`, `I+1`, `I+2`, or faults with no byte moved (the fault below
0x200 and "no byte moved" are the spec's own choices D6, D11). -/
def Obligations.DecimalDigitsStored : Prop :=
  ∀ (x : Reg) (s : State),
    decode (0xF#4 ++ (x ++ 0x33#8 : BitVec 12) : BitVec 16) = .known (.bcd x) ∧
    (s.i.toNat + 2 < 4096 → (s.cfg.lowWrite = .fault → 0x200 ≤ s.i.toNat) →
      ∃ t, exec (.bcd x) s = .next t ∧
        (t.mem.read s.i.toNat).toNat = (s.readV x).toNat / 100 ∧
        (t.mem.read (s.i.toNat + 1)).toNat = (s.readV x).toNat / 10 % 10 ∧
        (t.mem.read (s.i.toNat + 2)).toNat = (s.readV x).toNat % 10 ∧
        Unchanged { bytes := storeAddrs s 3 } s t) ∧
    (s.cfg.lowWrite = .fault → s.i.toNat < 0x200 →
      exec (.bcd x) s = .next { s with execState := .faulted .fontWrite }) ∧
    (s.i.toNat + 2 ≥ 4096 → exec (.bcd x) s = .next { s with execState := .faulted .addressOutOfRange })

/-- R175: `Fx55` stores `V0..Vx` at `I..I+x`, or faults with no byte moved (the spec's own choices D6, D11); `I` is
unchanged (D4). -/
def Obligations.RegistersStored : Prop :=
  ∀ (x : Reg) (s : State),
    decode (0xF#4 ++ (x ++ 0x55#8 : BitVec 12) : BitVec 16) = .known (.storeRegs x) ∧
    (s.i.toNat + x.toNat < 4096 → (s.cfg.lowWrite = .fault → 0x200 ≤ s.i.toNat) →
      ∃ t, exec (.storeRegs x) s = .next t ∧
        (∀ r : Reg, r.toNat ≤ x.toNat → t.mem.read (s.i.toNat + r.toNat) = s.readV r) ∧
        Unchanged { bytes := storeAddrs s (x.toNat + 1) } s t) ∧
    (s.cfg.lowWrite = .fault → s.i.toNat < 0x200 →
      exec (.storeRegs x) s = .next { s with execState := .faulted .fontWrite }) ∧
    (s.i.toNat + x.toNat ≥ 4096 →
      exec (.storeRegs x) s = .next { s with execState := .faulted .addressOutOfRange })

/-- R176: `Fx65` loads `V0..Vx` from `I..I+x`, or faults with no register written (the spec's own choice D11); `I` is
unchanged (D4). -/
def Obligations.RegistersLoaded : Prop :=
  ∀ (x : Reg) (s : State),
    decode (0xF#4 ++ (x ++ 0x65#8 : BitVec 12) : BitVec 16) = .known (.loadRegs x) ∧
    (s.i.toNat + x.toNat < 4096 →
      ∃ t, exec (.loadRegs x) s = .next t ∧
        (∀ r : Reg, r.toNat ≤ x.toNat → t.readV r = s.mem.read (s.i.toNat + r.toNat)) ∧
        Unchanged { regs := regsUpTo x } s t) ∧
    (s.i.toNat + x.toNat ≥ 4096 →
      exec (.loadRegs x) s = .next { s with execState := .faulted .addressOutOfRange })

/-- R65, R271 (the spec's own choice D26): a fetch after `Fx55` or `Fx33` sees every byte they stored, the one at `PC` as
the high byte of the word and the one at `PC + 1` as the low byte. -/
def Obligations.StoredBytesAreFetched : Prop :=
  ∀ (x : Reg) (s : State) (p : Word), p.toNat + 1 < 4096 →
    (s.cfg.pcCheck = .strict → p.toNat % 2 = 0 ∧ 0x200 ≤ p.toNat) →
    (s.cfg.lowWrite = .fault → 0x200 ≤ s.i.toNat) →
    (s.i.toNat + x.toNat < 4096 → ∃ t w, exec (.storeRegs x) s = .next t ∧
      ({ t with pc := p } : State).fetchPhase = .ok w ∧
      (∀ r : Reg, r.toNat ≤ x.toNat → p.toNat = s.i.toNat + r.toNat → Word.hiByte w = s.readV r) ∧
      (∀ r : Reg, r.toNat ≤ x.toNat → p.toNat + 1 = s.i.toNat + r.toNat → Word.loByte w = s.readV r)) ∧
    (s.i.toNat + 2 < 4096 → ∃ t w, exec (.bcd x) s = .next t ∧
      ({ t with pc := p } : State).fetchPhase = .ok w ∧
      (∀ k, k < 3 → p.toNat = s.i.toNat + k → (Word.hiByte w).toNat = decimalDigit (s.readV x) k) ∧
      (∀ k, k < 3 → p.toNat + 1 = s.i.toNat + k → (Word.loByte w).toNat = decimalDigit (s.readV x) k))

/-- R53, R60 (the spec's own choice D6): under `lowWrite = fault` no step changes a byte below 0x200. -/
def Obligations.LowMemoryNeverMutated : Prop :=
  ∀ (s t : State) (a : Nat), s.cfg.lowWrite = .fault → step s = .next t → a < 0x200 → t.mem.read a = s.mem.read a

/-- The model's own form of memory (log 4): two memories in the canonical form that read alike at every address are
equal data. -/
def Obligations.CanonicalMemoriesReadApart : Prop :=
  ∀ m m' : Memory, m.wf → m'.wf → (∀ a, m.read a = m'.read a) → m = m'

/-! ### Display -/

/-- R190: `00E0` turns every pixel off. -/
def Obligations.ClearTurnsEveryPixelOff : Prop :=
  ∀ s : State,
    decode 0x00E0#16 = .known .clear ∧
    ∃ t, exec .clear s = .next t ∧ (∀ r c, t.fb.pixel r c = false) ∧ Unchanged { fb := true } s t

/-- R191, R192: `Dxyn` flips exactly the pixels the sprite covers and sets `VF` to 1 iff some pixel went from 1 to 0,
else to 0; a sprite past the end of memory faults with no pixel changed. Which pixels past an edge it covers is
`drawEdge` (D16); that all bytes are checked is the spec's own choice D18. -/
def Obligations.DrawFlipsTheCoveredPixels : Prop :=
  ∀ (x y : Reg) (n : BitVec 4) (s : State),
    decode (0xD#4 ++ (x ++ (y ++ n : BitVec 8) : BitVec 12) : BitVec 16) = .known (.draw x y n) ∧
    (n.toNat = 0 ∨ s.i.toNat + n.toNat ≤ 4096 →
      ∃ t, exec (.draw x y n) s = .next t ∧
        (∀ r c, s.covers x y n r c → t.fb.pixel r c = !s.fb.pixel r c) ∧
        (∀ r c, ¬ s.covers x y n r c → t.fb.pixel r c = s.fb.pixel r c) ∧
        ((∃ r c, s.fb.pixel r c = true ∧ t.fb.pixel r c = false) → t.readV VF = 1) ∧
        ((¬ ∃ r c, s.fb.pixel r c = true ∧ t.fb.pixel r c = false) → t.readV VF = 0) ∧
        Unchanged { regs := [VF], fb := true } s t) ∧
    (0 < n.toNat → s.i.toNat + n.toNat - 1 ≥ 4096 →
      exec (.draw x y n) s = .next { s with execState := .faulted .addressOutOfRange })

/-- R193 (the spec's own choice D17): `Dxy0` makes no address check, changes no pixel and sets `VF` to 0. -/
def Obligations.DrawOfHeightZero : Prop :=
  ∀ (x y : Reg) (s : State),
    ∃ t, exec (.draw x y 0) s = .next t ∧ t.readV VF = 0 ∧ Unchanged { regs := [VF] } s t

/-- R194 (which the spec derives from R192): a second draw of the same sprite at the same coordinates restores the
display, and sets `VF` exactly when the first turned some pixel on. -/
def Obligations.DrawTwiceRestores : Prop :=
  ∀ (x y x' y' : Reg) (n : BitVec 4) (s t : State), (n.toNat = 0 ∨ s.i.toNat + n.toNat ≤ 4096) →
    exec (.draw x y n) s = .next t → t.spriteCol x' = s.spriteCol x → t.spriteRow y' = s.spriteRow y →
    ∃ u, exec (.draw x' y' n) t = .next u ∧ u.fb = s.fb ∧
      (u.readV VF = 1 ↔ ∃ r c, s.fb.pixel r c = false ∧ t.fb.pixel r c = true)

/-! ### Input and timers -/

/-- R210 to R212: `Ex9E` and `ExA1` test the latch at `V[x]`, reduced modulo 16 under `keyIndex = mask`; under `fault` an
index of 16 or more faults (the spec's own choice D7). -/
def Obligations.KeySkips : Prop :=
  ∀ (x : Reg) (s : State),
    decode (0xE#4 ++ (x ++ 0x9E#8 : BitVec 12) : BitVec 16) = .known (.skipKeyDown x) ∧
    decode (0xE#4 ++ (x ++ 0xA1#8 : BitVec 12) : BitVec 16) = .known (.skipKeyUp x) ∧
    (∀ k : Nat, k = (s.readV x).toNat % 16 → ((s.readV x).toNat < 16 ∨ s.cfg.keyIndex = .mask) →
      (∃ t, exec (.skipKeyDown x) s = .next t ∧
        t.pc = (if s.keys.getLsbD k = true then s.pc + 2 else s.pc) ∧ Unchanged { pc := true } s t) ∧
      (∃ t, exec (.skipKeyUp x) s = .next t ∧
        t.pc = (if s.keys.getLsbD k = false then s.pc + 2 else s.pc) ∧ Unchanged { pc := true } s t)) ∧
    ((s.readV x).toNat ≥ 16 → s.cfg.keyIndex = .fault →
      exec (.skipKeyDown x) s = .next { s with execState := .faulted .keyIndexOutOfRange } ∧
      exec (.skipKeyUp x) s = .next { s with execState := .faulted .keyIndexOutOfRange })

/-- R213, R215, R216: `Fx07`, `Fx15` and `Fx18`. -/
def Obligations.TimerInstructions : Prop :=
  ∀ (x : Reg) (s : State),
    decode (0xF#4 ++ (x ++ 0x07#8 : BitVec 12) : BitVec 16) = .known (.getDelay x) ∧
    decode (0xF#4 ++ (x ++ 0x15#8 : BitVec 12) : BitVec 16) = .known (.setDelay x) ∧
    decode (0xF#4 ++ (x ++ 0x18#8 : BitVec 12) : BitVec 16) = .known (.setSound x) ∧
    (∃ t, exec (.getDelay x) s = .next t ∧ t.readV x = s.dt ∧ Unchanged { regs := [x] } s t) ∧
    (∃ t, exec (.setDelay x) s = .next t ∧ t.dt = s.readV x ∧ Unchanged { dt := true } s t) ∧
    (∃ t, exec (.setSound x) s = .next t ∧ t.st = s.readV x ∧ Unchanged { st := true } s t)

/-- R214 (the spec's own choices D8, D9): `Fx0A` undoes the pre-advance and waits; the step that executes it leaves `PC`
and does not look for a key. -/
def Obligations.WaitKeyDoesNotAdvance : Prop :=
  ∀ (x : Reg) (s : State),
    decode (0xF#4 ++ (x ++ 0x0A#8 : BitVec 12) : BitVec 16) = .known (.waitKey x) ∧
    (∃ t, exec (.waitKey x) s = .next t ∧ t.pc = s.pc - 2 ∧ t.execState = .awaitingKey x ∧
      Unchanged { pc := true, exec := true } s t) ∧
    (s.executes (.waitKey x) → step s = .next { s with execState := .awaitingKey x, prevKeys := s.keys })

/-! ### Host transactions -/

/-- R240, R247: the tick transaction decrements both timers, floored at 0, returns nothing and changes nothing else; in
`Faulted` it changes nothing (the spec's own choice D22). -/
def Obligations.TickDecrementsTimers : Prop :=
  ∀ s : State,
    transact .tick s = .next (.done, s.tick) ∧
    ((∃ f, s.execState = .faulted f) → s.tick = s) ∧
    ((∀ f, s.execState ≠ .faulted f) →
      s.tick.dt.toNat = s.dt.toNat - 1 ∧ s.tick.st.toNat = s.st.toNat - 1 ∧
      s.tick = { s with dt := s.tick.dt, st := s.tick.st })

/-- R243 to R245: the latch write replaces the whole latch and nothing else; the host's reads change nothing. -/
def Obligations.LatchWriteAndHostReads : Prop :=
  ∀ (s : State) (k : BitVec 16),
    transact (.setKeys k) s = .next (.done, { s with keys := k }) ∧
    transact .readFb s = .next (.frame s.fb, s) ∧
    transact .readSound s = .next (.sound (decide (s.st.toNat > 0)), s) ∧
    transact .readExec s = .next (.exec s.execState, s)

/-- R39, where the model carries the configuration in its state (log 1): no transaction changes it. -/
def Obligations.ConfigurationNeverChanges : Prop :=
  ∀ (tr : Transaction) (s t : State) (r : Reply), transact tr s = .next (r, t) → t.cfg = s.cfg

/-! ### Whole-machine rules -/

/-- R105 (the spec's own choice D4) with the tables of R22, R25, R37 and R57: every instruction changes only its
footprint. -/
def Obligations.EveryInstructionKeepsItsFrame : Prop :=
  ∀ (i : Instr) (s t : State), exec i s = .next t → Unchanged (footprint i s) s t

/-- R24, R28, R29, R30, R57: a step that changes `I`, the stack, a timer, the display or a byte of memory executes one
of the instructions the spec names for it. -/
def Obligations.OnlyNamedInstructionsChange : Prop :=
  ∀ s t : State, step s = .next t →
    (t.i ≠ s.i → (∃ nnn, s.executes (.loadI nnn)) ∨ (∃ x, s.executes (.addI x)) ∨ ∃ x, s.executes (.fontAddr x)) ∧
    (t.stack ≠ s.stack ∨ t.sp ≠ s.sp → s.executes .ret ∨ ∃ nnn, s.executes (.call nnn)) ∧
    (t.dt ≠ s.dt → ∃ x, s.executes (.setDelay x)) ∧
    (t.st ≠ s.st → ∃ x, s.executes (.setSound x)) ∧
    (t.fb ≠ s.fb → s.executes .clear ∨ ∃ x y n, s.executes (.draw x y n)) ∧
    (∀ a, t.mem.read a ≠ s.mem.read a → ∃ x, s.executes (.bcd x) ∨ s.executes (.storeRegs x))

/-- R26, R108, R120 and the model's canonical form of memory (log 4): every step keeps the invariant. -/
def Obligations.StepKeepsInvariant : Prop := ∀ s t : State, s.Inv → step s = .next t → t.Inv

/-- R246: the invariant holds in every state a host can bring a machine to, by any schedule of transactions. Its memory
part is the model's own form (log 4). -/
def Obligations.ReachableStatesMeetInvariant : Prop := ∀ s : State, Reachable s → s.Inv

/-- R110, R112 (the spec's own definition D33): a final-good state idles. A step changes nothing but `PREV_KEYS`. -/
def Obligations.FinalGoodStateIdles : Prop :=
  ∀ s : State, s.finalGood → step s = .next { s with prevKeys := s.keys }

/-- The model's own (log 9, log 10): after `withFetchWord` the very next step fetches the table word, in every state. -/
def Obligations.PlacedWordIsFetched : Prop :=
  ∀ (s : State) (w : Nat), w < 2 ^ 16 →
    (s.withFetchWord 16 w).execState = .running ∧
    (s.withFetchWord 16 w).fetchPhase = .ok (BitVec.ofNat 16 w) ∧
    (∀ i, decodeTableWord 16 w = some i ↔ decode (BitVec.ofNat 16 w) = .known i)

/-- R246, R26 and the model's canonical form of memory (log 4): every transaction keeps the invariant. -/
def Obligations.TransactionsKeepInvariant : Prop :=
  ∀ (tr : Transaction) (s t : State) (r : Reply), s.Inv → transact tr s = .next (r, t) → t.Inv

/-- R260 and the model's canonical form of memory (log 4): every launch state meets the invariant. -/
def Obligations.LaunchMeetsInvariant : Prop :=
  ∀ (cfg : Config) (draws : Draws) (initFill : Nat → Byte) (image : List Byte) (s : State),
    State.load cfg draws initFill image = .ok s → s.Inv
end

