-- ==== Sys2Proof/Laws/State.lean ====
section
/-! SUPPORT. One lemma per field per update of State, true by rfl, so that no proof unfolds a record update; and what a
register reads as after a register write. -/

namespace Sys2Proof.Machine

/-! ### `V[x] <- b` -/

@[simp] theorem State.writeV_cfg (s : State) (x : Reg) (b : Byte) : (s.writeV x b).cfg = s.cfg := rfl
@[simp] theorem State.writeV_mem (s : State) (x : Reg) (b : Byte) : (s.writeV x b).mem = s.mem := rfl
@[simp] theorem State.writeV_i (s : State) (x : Reg) (b : Byte) : (s.writeV x b).i = s.i := rfl
@[simp] theorem State.writeV_pc (s : State) (x : Reg) (b : Byte) : (s.writeV x b).pc = s.pc := rfl
@[simp] theorem State.writeV_stack (s : State) (x : Reg) (b : Byte) : (s.writeV x b).stack = s.stack := rfl
@[simp] theorem State.writeV_sp (s : State) (x : Reg) (b : Byte) : (s.writeV x b).sp = s.sp := rfl
@[simp] theorem State.writeV_dt (s : State) (x : Reg) (b : Byte) : (s.writeV x b).dt = s.dt := rfl
@[simp] theorem State.writeV_st (s : State) (x : Reg) (b : Byte) : (s.writeV x b).st = s.st := rfl
@[simp] theorem State.writeV_fb (s : State) (x : Reg) (b : Byte) : (s.writeV x b).fb = s.fb := rfl
@[simp] theorem State.writeV_keys (s : State) (x : Reg) (b : Byte) : (s.writeV x b).keys = s.keys := rfl
@[simp] theorem State.writeV_prevKeys (s : State) (x : Reg) (b : Byte) : (s.writeV x b).prevKeys = s.prevKeys := rfl
@[simp] theorem State.writeV_execState (s : State) (x : Reg) (b : Byte) : (s.writeV x b).execState = s.execState := rfl
@[simp] theorem State.writeV_draws (s : State) (x : Reg) (b : Byte) : (s.writeV x b).draws = s.draws := rfl

/-! ### Fault entry -/

@[simp] theorem State.raiseFault_cfg (s : State) (f : Fault) : (s.raiseFault f).cfg = s.cfg := rfl
@[simp] theorem State.raiseFault_mem (s : State) (f : Fault) : (s.raiseFault f).mem = s.mem := rfl
@[simp] theorem State.raiseFault_v (s : State) (f : Fault) : (s.raiseFault f).v = s.v := rfl
@[simp] theorem State.raiseFault_i (s : State) (f : Fault) : (s.raiseFault f).i = s.i := rfl
@[simp] theorem State.raiseFault_pc (s : State) (f : Fault) : (s.raiseFault f).pc = s.pc := rfl
@[simp] theorem State.raiseFault_stack (s : State) (f : Fault) : (s.raiseFault f).stack = s.stack := rfl
@[simp] theorem State.raiseFault_sp (s : State) (f : Fault) : (s.raiseFault f).sp = s.sp := rfl
@[simp] theorem State.raiseFault_dt (s : State) (f : Fault) : (s.raiseFault f).dt = s.dt := rfl
@[simp] theorem State.raiseFault_st (s : State) (f : Fault) : (s.raiseFault f).st = s.st := rfl
@[simp] theorem State.raiseFault_fb (s : State) (f : Fault) : (s.raiseFault f).fb = s.fb := rfl
@[simp] theorem State.raiseFault_keys (s : State) (f : Fault) : (s.raiseFault f).keys = s.keys := rfl
@[simp] theorem State.raiseFault_prevKeys (s : State) (f : Fault) : (s.raiseFault f).prevKeys = s.prevKeys := rfl
@[simp] theorem State.raiseFault_draws (s : State) (f : Fault) : (s.raiseFault f).draws = s.draws := rfl
@[simp] theorem State.raiseFault_readV (s : State) (f : Fault) (r : Reg) : (s.raiseFault f).readV r = s.readV r := rfl

/-! ### The pre-advance -/

@[simp] theorem State.advance_cfg (s : State) : (s.advance).cfg = s.cfg := rfl
@[simp] theorem State.advance_mem (s : State) : (s.advance).mem = s.mem := rfl
@[simp] theorem State.advance_v (s : State) : (s.advance).v = s.v := rfl
@[simp] theorem State.advance_i (s : State) : (s.advance).i = s.i := rfl
@[simp] theorem State.advance_stack (s : State) : (s.advance).stack = s.stack := rfl
@[simp] theorem State.advance_sp (s : State) : (s.advance).sp = s.sp := rfl
@[simp] theorem State.advance_dt (s : State) : (s.advance).dt = s.dt := rfl
@[simp] theorem State.advance_st (s : State) : (s.advance).st = s.st := rfl
@[simp] theorem State.advance_fb (s : State) : (s.advance).fb = s.fb := rfl
@[simp] theorem State.advance_keys (s : State) : (s.advance).keys = s.keys := rfl
@[simp] theorem State.advance_prevKeys (s : State) : (s.advance).prevKeys = s.prevKeys := rfl
@[simp] theorem State.advance_execState (s : State) : (s.advance).execState = s.execState := rfl
@[simp] theorem State.advance_draws (s : State) : (s.advance).draws = s.draws := rfl
@[simp] theorem State.advance_readV (s : State) (r : Reg) : (s.advance).readV r = s.readV r := rfl

/-! ### The end of a step -/

@[simp] theorem State.endStep_cfg (s : State) : (s.endStep).cfg = s.cfg := by
  unfold State.endStep; split <;> rfl
@[simp] theorem State.endStep_mem (s : State) : (s.endStep).mem = s.mem := by
  unfold State.endStep; split <;> rfl
@[simp] theorem State.endStep_v (s : State) : (s.endStep).v = s.v := by
  unfold State.endStep; split <;> rfl
@[simp] theorem State.endStep_i (s : State) : (s.endStep).i = s.i := by
  unfold State.endStep; split <;> rfl
@[simp] theorem State.endStep_pc (s : State) : (s.endStep).pc = s.pc := by
  unfold State.endStep; split <;> rfl
@[simp] theorem State.endStep_stack (s : State) : (s.endStep).stack = s.stack := by
  unfold State.endStep; split <;> rfl
@[simp] theorem State.endStep_sp (s : State) : (s.endStep).sp = s.sp := by
  unfold State.endStep; split <;> rfl
@[simp] theorem State.endStep_dt (s : State) : (s.endStep).dt = s.dt := by
  unfold State.endStep; split <;> rfl
@[simp] theorem State.endStep_st (s : State) : (s.endStep).st = s.st := by
  unfold State.endStep; split <;> rfl
@[simp] theorem State.endStep_fb (s : State) : (s.endStep).fb = s.fb := by
  unfold State.endStep; split <;> rfl
@[simp] theorem State.endStep_keys (s : State) : (s.endStep).keys = s.keys := by
  unfold State.endStep; split <;> rfl
@[simp] theorem State.endStep_execState (s : State) : (s.endStep).execState = s.execState := by
  unfold State.endStep; split <;> rfl
@[simp] theorem State.endStep_draws (s : State) : (s.endStep).draws = s.draws := by
  unfold State.endStep; split <;> rfl
@[simp] theorem State.endStep_readV (s : State) (r : Reg) : (s.endStep).readV r = s.readV r := by
  unfold State.endStep; split <;> rfl

/-! ### What the changed field holds -/

@[simp] theorem State.raiseFault_execState (s : State) (f : Fault) : (s.raiseFault f).execState = .faulted f := rfl
@[simp] theorem State.advance_pc (s : State) : s.advance.pc = s.pc + 2 := rfl

theorem State.endStep_prevKeys_of_faulted (s : State) (f : Fault) (h : s.execState = .faulted f) : s.endStep = s := by
  simp [State.endStep, h]

theorem State.endStep_of_not_faulted (s : State) (h : ∀ f, s.execState ≠ .faulted f) :
    s.endStep = { s with prevKeys := s.keys } := by
  unfold State.endStep
  split
  · exact absurd ‹_› (h _)
  · rfl

/-! ### Register reads after register writes -/

@[simp] theorem State.readV_writeV_same (s : State) (x : Reg) (b : Byte) : (s.writeV x b).readV x = b := by
  simp [State.readV, State.writeV]

theorem State.readV_writeV_other (s : State) (x r : Reg) (b : Byte) (h : r ≠ x) :
    (s.writeV x b).readV r = s.readV r := by
  have : x.toNat ≠ r.toNat := fun e => h (BitVec.eq_of_toNat_eq e.symm)
  simp [State.readV, State.writeV, this]

theorem State.readV_writeV (s : State) (x r : Reg) (b : Byte) :
    (s.writeV x b).readV r = if r = x then b else s.readV r := by
  by_cases h : r = x
  · simp [h]
  · simp [h, State.readV_writeV_other s x r b h]

/-- Two register files that read alike are the same. -/
theorem State.v_eq_of_readV (s t : State) (h : ∀ r, s.readV r = t.readV r) : s.v = t.v := by
  apply Vector.ext
  intro k hk
  have := h (BitVec.ofNat 4 k)
  simpa [State.readV, BitVec.toNat_ofNat, Nat.mod_eq_of_lt hk] using this

/-- What `write_fr` does (R141): one field, and every register's value. -/
theorem State.writeFR_shape (s : State) (x : Reg) (r : Byte) (f : Bool) :
    ∃ v, s.writeFR x r f = { s with v := v } := by
  unfold State.writeFR State.writeV
  split <;> exact ⟨_, rfl⟩

theorem State.readV_writeFR (s : State) (x : Reg) (r : Byte) (f : Bool) (k : Reg) :
    (s.writeFR x r f).readV k =
      if k = x ∧ (x ≠ VF ∨ s.cfg.vfOrder = .flagThenResult) then r
      else if k = VF then flagByte f else s.readV k := by
  unfold State.writeFR
  split <;> rename_i ho <;> by_cases hx : k = x <;> by_cases hv : k = VF <;> subst_vars <;>
    simp_all [State.readV_writeV]

theorem State.writeRegs_shape (bs : List Byte) : ∀ (s : State) (k : Nat), ∃ v, s.writeRegs k bs = { s with v := v } := by
  induction bs with
  | nil => exact fun s _ => ⟨s.v, rfl⟩
  | cons b bs ih =>
    intro s k
    obtain ⟨v, hv⟩ := ih (s.writeV (BitVec.ofNat 4 k) b) (k + 1)
    exact ⟨v, hv⟩

/-- Registers written by `writeRegs` hold the bytes; the others keep their values. -/
theorem State.readV_writeRegs (bs : List Byte) : ∀ (s : State) (k : Nat), k + bs.length ≤ 16 → ∀ r : Reg,
    (s.writeRegs k bs).readV r =
      if k ≤ r.toNat ∧ r.toNat < k + bs.length then bs.getD (r.toNat - k) 0 else s.readV r := by
  induction bs with
  | nil => intro s k _ r; simp [State.writeRegs]
  | cons b bs ih =>
    intro s k hk r
    simp only [List.length_cons] at hk
    have hr : (r = BitVec.ofNat 4 k) ↔ r.toNat = k := by
      rw [← BitVec.toNat_inj, BitVec.toNat_ofNat, Nat.mod_eq_of_lt (by omega)]
    rw [State.writeRegs, ih _ _ (by omega), State.readV_writeV]
    simp only [List.length_cons, hr]
    rcases Nat.lt_trichotomy r.toNat k with h | h | h
    · rw [if_neg (by omega), if_neg (by omega), if_neg (by omega)]
    · rw [if_neg (by omega), if_pos h, if_pos (by omega), h, Nat.sub_self]; rfl
    · by_cases h2 : r.toNat < k + 1 + bs.length
      · rw [if_pos (by omega), if_pos (by omega), show r.toNat - k = (r.toNat - (k + 1)) + 1 by omega, List.getD_cons_succ]
      · rw [if_neg (by omega), if_neg (by omega), if_neg (by omega)]

end Sys2Proof.Machine
end

