-- ==== Sys2Proof/Laws/Blitter.lean ====
section
/-! SUPPORT. The laws of the blitter (44_display.md R192): what a toggle and a blit do to each pixel, and which pixels a
sprite toggles. -/

namespace Sys2Proof.Machine

/-- A toggle flips its pixel and no other. -/
theorem Display.pixel_toggle (fb : Display) (r r' : Fin 32) (c c' : Fin 64) :
    (fb.toggle r c).pixel r' c' = (fb.pixel r' c' ^^ decide (r' = r ∧ c' = c)) := by
  unfold Display.toggle Display.pixel
  by_cases hr : r = r'
  · subst hr
    by_cases hc : c = c'
    · subst hc; simp
    · have : c.val ≠ c'.val := fun h => hc (Fin.ext h)
      simp [this, Ne.symm hc]
  · have : r.val ≠ r'.val := fun h => hr (Fin.ext h)
    simp [this, Ne.symm hr]

/-- Two displays with the same pixels are the same. -/
theorem Display.ext_pixel (fb fb' : Display) (h : ∀ r c, fb.pixel r c = fb'.pixel r c) : fb = fb' := by
  apply Vector.ext
  intro r hr
  apply Vector.ext
  intro c hc
  exact h ⟨r, hr⟩ ⟨c, hc⟩

@[simp] theorem Display.pixel_blank (r : Fin 32) (c : Fin 64) : Display.blank.pixel r c = false := by
  simp [Display.pixel, Display.blank]

/-- A blit of distinct pixels: each listed pixel is flipped, every other kept, and `hit` is set by a listed pixel that
was 1 (R192). -/
theorem blit_spec (ps : List (Fin 32 × Fin 64)) : ∀ (fb : Display) (hit : Bool), ps.Nodup →
    (∀ r c, (blit fb hit ps).1.pixel r c = (fb.pixel r c ^^ decide ((r, c) ∈ ps))) ∧
    (blit fb hit ps).2 = (hit || decide (∃ p ∈ ps, fb.pixel p.1 p.2 = true)) := by
  induction ps with
  | nil => intro fb hit _; simp [blit]
  | cons p ps ih =>
    intro fb hit hn
    rw [List.nodup_cons] at hn
    obtain ⟨h1, h2⟩ := ih (fb.toggle p.1 p.2) (hit || fb.pixel p.1 p.2) hn.2
    constructor
    · intro r c
      rw [blit, h1, Display.pixel_toggle]
      by_cases hp : (r, c) = p
      · subst hp; simp [hn.1]
      · have : ¬ (r = p.1 ∧ c = p.2) := fun h => hp (Prod.ext h.1 h.2)
        simp [this, hp]
    · rw [blit, h2, Bool.or_assoc]
      congr 1
      have hsame : (∃ q ∈ ps, (fb.toggle p.1 p.2).pixel q.1 q.2 = true) ↔ ∃ q ∈ ps, fb.pixel q.1 q.2 = true := by
        constructor <;> rintro ⟨q, hq, hx⟩ <;> refine ⟨q, hq, ?_⟩ <;>
          have hne : ¬ (q.1 = p.1 ∧ q.2 = p.2) := fun h => hn.1 (Prod.ext h.1 h.2 ▸ hq)
        · simpa [Display.pixel_toggle, hne] using hx
        · simpa [Display.pixel_toggle, hne] using hx
      by_cases hp : fb.pixel p.1 p.2 = true <;> simp [hp, hsame]

/-- Where a sprite bit falls (R192): under `clip` on its own place inside the screen, under `wrap` on it modulo the
screen. -/
theorem edgePixel_eq_some_iff (edge : DrawEdge) (r c : Nat) (p : Fin 32 × Fin 64) :
    edgePixel edge r c = some p ↔
      match edge with
      | .clip => r = p.1.val ∧ c = p.2.val
      | .wrap => r % 32 = p.1.val ∧ c % 64 = p.2.val := by
  obtain ⟨p1, p2⟩ := p
  have h1 := p1.isLt
  have h2 := p2.isLt
  unfold edgePixel
  cases edge
  · simp only [true_and]
    split
    · simp; omega
    · simp only [Option.some.injEq, Prod.mk.injEq, Fin.ext_iff]; omega
  · simp [Fin.ext_iff]

theorem mem_rowPixels (edge : DrawEdge) (r c0 : Nat) (b : Byte) (p : Fin 32 × Fin 64) :
    p ∈ rowPixels edge r c0 b ↔ ∃ k < 8, b.getLsbD (7 - k) = true ∧ edgePixel edge r (c0 + k) = some p := by
  unfold rowPixels
  simp only [List.mem_filterMap, List.mem_range]
  constructor
  · rintro ⟨k, hk, h⟩
    split at h
    · exact ⟨k, hk, ‹_›, h⟩
    · simp at h
  · rintro ⟨k, hk, hb, h⟩
    exact ⟨k, hk, by rw [if_pos hb]; exact h⟩

/-- The pixels of a sprite (R191, R192): those some 1 bit of some byte falls on. -/
theorem mem_spritePixels (edge : DrawEdge) (c0 : Nat) (p : Fin 32 × Fin 64) (bs : List Byte) : ∀ r0 : Nat,
    p ∈ spritePixels edge c0 r0 bs ↔
      ∃ j < bs.length, ∃ k < 8, (bs.getD j 0).getLsbD (7 - k) = true ∧ edgePixel edge (r0 + j) (c0 + k) = some p := by
  induction bs with
  | nil => simp [spritePixels]
  | cons b bs ih =>
    intro r0
    rw [spritePixels, List.mem_append, mem_rowPixels, ih]
    constructor
    · rintro (⟨k, hk, hb, h⟩ | ⟨j, hj, k, hk, hb, h⟩)
      · exact ⟨0, by simp, k, hk, by simpa using hb, by simpa using h⟩
      · exact ⟨j + 1, by simpa using hj, k, hk, by simpa using hb, by
          rw [show r0 + (j + 1) = r0 + 1 + j by omega]; exact h⟩
    · rintro ⟨j, hj, k, hk, hb, h⟩
      cases j with
      | zero => exact .inl ⟨k, hk, by simpa using hb, by simpa using h⟩
      | succ j =>
        exact .inr ⟨j, by simpa using hj, k, hk, by simpa using hb, by
          rw [show r0 + 1 + j = r0 + (j + 1) by omega]; exact h⟩

theorem nodup_rowPixels (edge : DrawEdge) (r c0 : Nat) (b : Byte) : (rowPixels edge r c0 b).Nodup := by
  unfold rowPixels
  rw [List.Nodup, List.pairwise_filterMap]
  refine List.Pairwise.imp_of_mem ?_ List.pairwise_lt_range
  intro j k hj hk hjk p hp q hq hpq
  subst hpq
  rw [List.mem_range] at hj hk
  split at hp
  case isFalse => simp at hp
  split at hq
  case isFalse => simp at hq
  rw [edgePixel_eq_some_iff] at hp hq
  cases edge <;> simp only at hp hq <;> omega

/-- "One sprite never covers a pixel twice" (R192), for the at most 15 bytes a sprite has. -/
theorem nodup_spritePixels (edge : DrawEdge) (c0 : Nat) (bs : List Byte) : ∀ r0 : Nat, bs.length ≤ 32 →
    (spritePixels edge c0 r0 bs).Nodup := by
  induction bs with
  | nil => simp [spritePixels]
  | cons b bs ih =>
    intro r0 hl
    simp only [List.length_cons] at hl
    rw [spritePixels, List.nodup_append]
    refine ⟨nodup_rowPixels edge r0 c0 b, ih (r0 + 1) (by omega), ?_⟩
    intro p hp q hq hpq
    subst hpq
    obtain ⟨k, _, _, h1⟩ := (mem_rowPixels _ _ _ _ _).1 hp
    obtain ⟨j, hj, k', _, _, h2⟩ := (mem_spritePixels _ _ _ _ _).1 hq
    rw [edgePixel_eq_some_iff] at h1 h2
    cases edge <;> simp only at h1 h2 <;> omega

end Sys2Proof.Machine
end

