-- ==== Sys2Proof/Laws/Encoding.lean ====
section
/-! SUPPORT. The fields of a word in each format (30_encoding.md R71, R72), and a word as the format of its own fields. -/

namespace Sys2Proof.Laws

/-! ### Formats as numbers -/

theorem append_toNat {m n : Nat} (a : BitVec m) (b : BitVec n) : (a ++ b).toNat = a.toNat * 2 ^ n + b.toNat := by
  rw [BitVec.toNat_append, ← Nat.shiftLeft_add_eq_or_of_lt b.isLt, Nat.shiftLeft_eq]

theorem formatFA_toNat (c : BitVec 4) (nnn : BitVec 12) : (formatFA c nnn).toNat = c.toNat * 2 ^ 12 + nnn.toNat :=
  append_toNat c nnn

theorem formatFXK_toNat (c : BitVec 4) (x : Reg) (kk : Byte) :
    (formatFXK c x kk).toNat = c.toNat * 2 ^ 12 + (x.toNat * 2 ^ 8 + kk.toNat) := by
  rw [formatFXK, append_toNat, append_toNat]

theorem formatFXYN_toNat (c : BitVec 4) (x y : Reg) (n : BitVec 4) :
    (formatFXYN c x y n).toNat = c.toNat * 2 ^ 12 + (x.toNat * 2 ^ 8 + (y.toNat * 2 ^ 4 + n.toNat)) := by
  rw [formatFXYN, append_toNat, append_toNat, append_toNat]

/-- A field of a word, as a number. -/
theorem extract_toNat (w : Word) (lo len : Nat) : (w.extractLsb' lo len).toNat = w.toNat / 2 ^ lo % 2 ^ len := by
  rw [BitVec.extractLsb'_toNat, Nat.shiftRight_eq_div_pow]

/-! ### The fields of a format -/

section
variable (c : BitVec 4) (x y n : BitVec 4) (kk : Byte) (nnn : BitVec 12)

@[simp] theorem opClass_formatFA : Word.opClass (formatFA c nnn) = c := by
  apply BitVec.eq_of_toNat_eq
  have := c.isLt
  have := nnn.isLt
  rw [Word.opClass, extract_toNat, formatFA_toNat]
  omega

@[simp] theorem fieldNNN_formatFA : Word.fieldNNN (formatFA c nnn) = nnn := by
  apply BitVec.eq_of_toNat_eq
  have := nnn.isLt
  rw [Word.fieldNNN, extract_toNat, formatFA_toNat]
  omega

@[simp] theorem opClass_formatFXK : Word.opClass (formatFXK c x kk) = c := opClass_formatFA c _

@[simp] theorem fieldX_formatFXK : Word.fieldX (formatFXK c x kk) = x := by
  apply BitVec.eq_of_toNat_eq
  have := x.isLt
  have := kk.isLt
  rw [Word.fieldX, extract_toNat, formatFXK_toNat]
  omega

@[simp] theorem fieldKK_formatFXK : Word.fieldKK (formatFXK c x kk) = kk := by
  apply BitVec.eq_of_toNat_eq
  have := kk.isLt
  rw [Word.fieldKK, extract_toNat, formatFXK_toNat]
  omega

@[simp] theorem opClass_formatFXYN : Word.opClass (formatFXYN c x y n) = c := opClass_formatFA c _

@[simp] theorem fieldX_formatFXYN : Word.fieldX (formatFXYN c x y n) = x := fieldX_formatFXK c x _

@[simp] theorem fieldY_formatFXYN : Word.fieldY (formatFXYN c x y n) = y := by
  apply BitVec.eq_of_toNat_eq
  have := y.isLt
  have := n.isLt
  rw [Word.fieldY, extract_toNat, formatFXYN_toNat]
  omega

@[simp] theorem fieldN_formatFXYN : Word.fieldN (formatFXYN c x y n) = n := by
  apply BitVec.eq_of_toNat_eq
  have := n.isLt
  rw [Word.fieldN, extract_toNat, formatFXYN_toNat]
  omega

end

/-! ### A word from its fields -/

theorem word_eq_formatFA (w : Word) : formatFA (Word.opClass w) (Word.fieldNNN w) = w := by
  apply BitVec.eq_of_toNat_eq
  have := w.isLt
  rw [formatFA_toNat, Word.opClass, Word.fieldNNN, extract_toNat, extract_toNat]
  omega

theorem word_eq_formatFXK (w : Word) : formatFXK (Word.opClass w) (Word.fieldX w) (Word.fieldKK w) = w := by
  apply BitVec.eq_of_toNat_eq
  have := w.isLt
  rw [formatFXK_toNat, Word.opClass, Word.fieldX, Word.fieldKK, extract_toNat, extract_toNat, extract_toNat]
  omega

theorem word_eq_formatFXYN (w : Word) :
    formatFXYN (Word.opClass w) (Word.fieldX w) (Word.fieldY w) (Word.fieldN w) = w := by
  apply BitVec.eq_of_toNat_eq
  have := w.isLt
  rw [formatFXYN_toNat, Word.opClass, Word.fieldX, Word.fieldY, Word.fieldN, extract_toNat, extract_toNat,
    extract_toNat, extract_toNat]
  omega

/-- The two bytes of a word, put back together. -/
theorem wordOfBytes_bytes (w : Word) : wordOfBytes (Word.hiByte w) (Word.loByte w) = w := by
  apply BitVec.eq_of_toNat_eq
  have := w.isLt
  rw [wordOfBytes, append_toNat, Word.hiByte, Word.loByte, extract_toNat, extract_toNat]
  omega

end Sys2Proof.Laws
end

