-- ==== Sys2Proof/Laws/Memory.lean ====
section
/-! SUPPORT. The laws of memory: a read after a write, every other byte unchanged, and the canonical form kept by every
memory operation. -/

namespace Sys2Proof.Machine

/-! ### Listing and unlisting one address -/

theorem Memory.lookup_put_same (m : Memory) (a : Nat) (b : Byte) : (m.put a b).lookup a = some b := by
  induction m with
  | nil => simp [Memory.put, Memory.lookup]
  | cons c m ih =>
    obtain ⟨k, d⟩ := c
    unfold Memory.put
    split
    · simp [Memory.lookup]
    · split
      · simp [Memory.lookup]
      · rename_i h
        simp [Memory.lookup, Ne.symm h, ih]

theorem Memory.lookup_put_other (m : Memory) (a a' : Nat) (b : Byte) (h : a' ≠ a) :
    (m.put a b).lookup a' = m.lookup a' := by
  induction m with
  | nil => simp [Memory.put, Memory.lookup, Ne.symm h]
  | cons c m ih =>
    obtain ⟨k, d⟩ := c
    unfold Memory.put
    split
    · simp [Memory.lookup, Ne.symm h]
    · split
      · rename_i e; subst e; simp [Memory.lookup, Ne.symm h]
      · simp [Memory.lookup, ih]

theorem Memory.lookup_erase_same (m : Memory) (a : Nat) : (m.erase a).lookup a = none := by
  induction m with
  | nil => rfl
  | cons c m ih =>
    obtain ⟨k, d⟩ := c
    unfold Memory.erase at ih ⊢
    by_cases h : k = a <;> simp [Memory.lookup, h, ih]

theorem Memory.lookup_erase_other (m : Memory) (a a' : Nat) (h : a' ≠ a) : (m.erase a).lookup a' = m.lookup a' := by
  induction m with
  | nil => rfl
  | cons c m ih =>
    obtain ⟨k, d⟩ := c
    unfold Memory.erase at ih ⊢
    by_cases hk : k = a
    · subst hk; simp [Memory.lookup, Ne.symm h, ih]
    · simp [Memory.lookup, hk, ih]

/-! ### Reads after writes -/

@[simp] theorem Memory.read_nil (a : Nat) : Memory.read [] a = background a := rfl

@[simp] theorem Memory.read_write_same (m : Memory) (a : Nat) (b : Byte) : (m.write a b).read a = b := by
  unfold Memory.write Memory.read
  split
  · rename_i h; simp [Memory.lookup_erase_same, h]
  · simp [Memory.lookup_put_same]

theorem Memory.read_write_other (m : Memory) (a a' : Nat) (b : Byte) (h : a' ≠ a) :
    (m.write a b).read a' = m.read a' := by
  unfold Memory.write Memory.read
  split
  · rw [Memory.lookup_erase_other m a a' h]
  · rw [Memory.lookup_put_other m a a' b h]

/-- Every byte after a store of bytes: the stored byte inside the block, the old byte outside. -/
theorem Memory.read_writeBytes (bs : List Byte) : ∀ (m : Memory) (a c : Nat),
    (m.writeBytes a bs).read c = if a ≤ c ∧ c < a + bs.length then bs.getD (c - a) 0 else m.read c := by
  induction bs with
  | nil => intro m a c; simp [Memory.writeBytes]
  | cons b bs ih =>
    intro m a c
    rw [Memory.writeBytes, ih]
    simp only [List.length_cons]
    rcases Nat.lt_trichotomy c a with h | h | h
    · rw [if_neg (by omega), if_neg (by omega), Memory.read_write_other m a c b (by omega)]
    · subst h; rw [if_neg (by omega), if_pos (by omega), Nat.sub_self]; simp
    · by_cases h2 : c < a + 1 + bs.length
      · rw [if_pos (by omega), if_pos (by omega), show c - a = (c - (a + 1)) + 1 by omega, List.getD_cons_succ]
      · rw [if_neg (by omega), if_neg (by omega), Memory.read_write_other m a c b (by omega)]

/-! ### The canonical form -/

theorem Memory.mem_put (m : Memory) (a : Nat) (b : Byte) (c : Host.Cell) (h : c ∈ m.put a b) : c = (a, b) ∨ c ∈ m := by
  induction m with
  | nil => simpa [Memory.put] using h
  | cons d m ih =>
    obtain ⟨k, e⟩ := d
    unfold Memory.put at h
    split at h
    · simpa using h
    · split at h
      · rcases List.mem_cons.1 h with h | h
        · exact .inl h
        · exact .inr (List.mem_cons_of_mem _ h)
      · rcases List.mem_cons.1 h with h | h
        · exact .inr (by simp [h])
        · rcases ih h with h | h
          · exact .inl h
          · exact .inr (List.mem_cons_of_mem _ h)

theorem Memory.rising_put (m : Memory) (a : Nat) (b : Byte) (h : m.Pairwise (fun p q => p.1 < q.1)) :
    (m.put a b).Pairwise (fun p q => p.1 < q.1) := by
  induction m with
  | nil => simp [Memory.put]
  | cons d m ih =>
    obtain ⟨k, e⟩ := d
    rw [List.pairwise_cons] at h
    unfold Memory.put
    split
    · rename_i hk
      refine List.pairwise_cons.2 ⟨fun c hc => ?_, List.pairwise_cons.2 h⟩
      rcases List.mem_cons.1 hc with rfl | hc
      · exact hk
      · exact Nat.lt_trans hk (h.1 c hc)
    · split
      · rename_i hk; subst hk; exact List.pairwise_cons.2 ⟨fun c hc => h.1 c hc, h.2⟩
      · refine List.pairwise_cons.2 ⟨fun c hc => ?_, ih h.2⟩
        rcases Memory.mem_put m a b c hc with rfl | hc
        · simp only; omega
        · exact h.1 c hc

theorem Memory.wf_nil : Memory.wf [] := by simp [Memory.wf]

/-- A store keeps the canonical form. -/
theorem Memory.wf_write (m : Memory) (a : Nat) (b : Byte) (h : m.wf) (ha : a < memSize) : (m.write a b).wf := by
  unfold Memory.write
  split
  · exact ⟨h.1.filter _, fun c hc => h.2 c (List.mem_filter.1 hc).1⟩
  · rename_i hb
    refine ⟨Memory.rising_put m a b h.1, fun c hc => ?_⟩
    rcases Memory.mem_put m a b c hc with rfl | hc
    · exact ⟨ha, hb⟩
    · exact h.2 c hc

theorem Memory.wf_writeBytes (bs : List Byte) : ∀ (m : Memory) (a : Nat), m.wf → a + bs.length ≤ memSize →
    (m.writeBytes a bs).wf := by
  induction bs with
  | nil => exact fun m _ h _ => h
  | cons b bs ih =>
    intro m a h ha
    simp only [List.length_cons] at ha
    exact ih _ _ (Memory.wf_write m a b h (by omega)) (by omega)

/-- The memory `load` builds is in the canonical form. -/
theorem Memory.wf_ofBytes (f : Nat → Byte) : (Memory.ofBytes f).wf := by
  unfold Memory.ofBytes
  constructor
  · rw [List.pairwise_filterMap]
    refine List.Pairwise.imp ?_ List.pairwise_lt_range
    intro a b hab p hp q hq
    split at hp <;> simp at hp
    split at hq <;> simp at hq
    obtain rfl := hp
    obtain rfl := hq
    exact hab
  · intro c hc
    obtain ⟨a, ha, hc⟩ := List.mem_filterMap.1 hc
    split at hc
    · simp at hc
    · simp only [Option.some.injEq] at hc
      subst hc
      exact ⟨List.mem_range.1 ha, ‹_›⟩

/-- The byte listed at `a` in the list of the bytes of `f` that differ from the background. -/
theorem Memory.lookup_listing (f : Nat → Byte) (l : List Nat) (a : Nat) :
    Memory.lookup (l.filterMap (fun k => if f k = background k then none else some (k, f k))) a =
      if a ∈ l ∧ f a ≠ background a then some (f a) else none := by
  induction l with
  | nil => simp [Memory.lookup]
  | cons k l ih =>
    rw [List.filterMap_cons]
    by_cases hf : f k = background k
    · by_cases hk : a = k
      · subst hk; simp [hf, ih]
      · simp [hf, ih, hk]
    · by_cases hk : a = k
      · subst hk; simp [hf, Memory.lookup]
      · simp [hf, Memory.lookup, ih, hk, Ne.symm hk]

/-- The memory `load` builds reads as `f` at every address. -/
theorem Memory.read_ofBytes (f : Nat → Byte) (a : Nat) (ha : a < memSize) : (Memory.ofBytes f).read a = f a := by
  unfold Memory.read Memory.ofBytes
  rw [Memory.lookup_listing]
  by_cases h : f a = background a
  · rw [if_neg (by simp [h])]; simp [h]
  · rw [if_pos ⟨List.mem_range.2 ha, h⟩]; rfl

/-! ### Equal memories are equal data -/

theorem Memory.lookup_eq_some_of_mem (m : Memory) (h : m.Pairwise (fun p q => p.1 < q.1)) (c : Host.Cell) (hc : c ∈ m) :
    m.lookup c.1 = some c.2 := by
  induction m with
  | nil => simp at hc
  | cons d m ih =>
    obtain ⟨k, e⟩ := d
    rw [List.pairwise_cons] at h
    rcases List.mem_cons.1 hc with rfl | hc
    · simp [Memory.lookup]
    · have := h.1 c hc
      simp only at this
      simp [Memory.lookup, Nat.ne_of_lt this, ih h.2 hc]

theorem Memory.mem_of_lookup_eq_some (m : Memory) (a : Nat) (b : Byte) (h : m.lookup a = some b) : (a, b) ∈ m := by
  induction m with
  | nil => simp [Memory.lookup] at h
  | cons d m ih =>
    obtain ⟨k, e⟩ := d
    unfold Memory.lookup at h
    split at h
    · rename_i hk; subst hk; simp only [Option.some.injEq] at h; subst h; simp
    · exact List.mem_cons_of_mem _ (ih h)

/-- In the canonical form a cell is listed iff it is what the address reads as and not what it would read as unlisted. -/
theorem Memory.mem_iff_read (m : Memory) (h : m.wf) (a : Nat) (b : Byte) :
    (a, b) ∈ m ↔ m.read a = b ∧ b ≠ background a := by
  constructor
  · intro hm
    have := Memory.lookup_eq_some_of_mem m h.1 (a, b) hm
    exact ⟨by simp [Memory.read, this], (h.2 _ hm).2⟩
  · rintro ⟨hr, hb⟩
    unfold Memory.read at hr
    cases hl : m.lookup a with
    | none => rw [hl] at hr; exact absurd hr.symm hb
    | some c => rw [hl] at hr; simp only [Option.getD_some] at hr; subst hr; exact Memory.mem_of_lookup_eq_some m a c hl

end Sys2Proof.Machine
end

