-- ==== Sys2Proof/Laws/Ops.lean ====
section
/-! SUPPORT. One lemma per shared operation, saying once everything it can do. -/

namespace Sys2Proof.Machine

/-! ### The checks of an access (20_memory.md R52, R53; 43_index_memory.md R174) -/

/-- One address passes its check iff it exists and, for a store under `lowWrite = fault`, is not low. -/
theorem checkAddr_eq_none_iff (cfg : Config) (kind : AccessKind) (a : Nat) :
    checkAddr cfg kind a = none ↔ a < memSize ∧ (kind = .write → cfg.lowWrite = .fault → programBase ≤ a) := by
  unfold checkAddr
  split
  · simp; omega
  · split
    · rename_i h1 h2; simp [h2.1, h2.2.2]; omega
    · rename_i h1 h2
      refine ⟨fun _ => ⟨by omega, fun hk hl => ?_⟩, fun _ => rfl⟩
      by_contra hc
      exact h2 ⟨hk, by omega, hl⟩

/-- A block passes its check iff every address of it does. -/
theorem checkBlock_eq_none_iff (cfg : Config) (kind : AccessKind) (count : Nat) : ∀ a : Nat,
    checkBlock cfg kind a count = none ↔ ∀ j < count, checkAddr cfg kind (a + j) = none := by
  induction count with
  | zero => simp [checkBlock]
  | succ n ih =>
    intro a
    unfold checkBlock
    cases h : checkAddr cfg kind a with
    | some f =>
      simp only [reduceCtorEq, false_iff]
      intro hall
      have := hall 0 (by omega)
      simp [h] at this
    | none =>
      simp only [ih]
      constructor
      · intro hall j hj
        cases j with
        | zero => simpa using h
        | succ j => simpa [Nat.add_assoc, Nat.add_comm 1 j] using hall j (by omega)
      · intro hall j hj
        simpa [Nat.add_assoc, Nat.add_comm 1 j] using hall (j + 1) (by omega)

/-- A block that fails its check raises the fault of its first failing address (R174). -/
theorem checkBlock_eq_some_iff (cfg : Config) (kind : AccessKind) (f : Fault) (count : Nat) : ∀ a : Nat,
    checkBlock cfg kind a count = some f ↔
      ∃ j < count, checkAddr cfg kind (a + j) = some f ∧ ∀ k < j, checkAddr cfg kind (a + k) = none := by
  induction count with
  | zero => simp [checkBlock]
  | succ n ih =>
    intro a
    unfold checkBlock
    cases h : checkAddr cfg kind a with
    | some g =>
      simp only [Option.some.injEq]
      constructor
      · rintro rfl; exact ⟨0, by omega, by simpa using h, by omega⟩
      · rintro ⟨j, _, hj, hk⟩
        cases j with
        | zero => simpa [h] using hj
        | succ j => have := hk 0 (by omega); simp [h] at this
    | none =>
      simp only [ih]
      constructor
      · rintro ⟨j, hj, hf, hk⟩
        refine ⟨j + 1, by omega, by simpa [Nat.add_assoc, Nat.add_comm 1 j] using hf, fun k hk' => ?_⟩
        cases k with
        | zero => simpa using h
        | succ k => simpa [Nat.add_assoc, Nat.add_comm 1 k] using hk k (by omega)
      · rintro ⟨j, hj, hf, hk⟩
        cases j with
        | zero => simp [h] at hf
        | succ j =>
          refine ⟨j, by omega, by simpa [Nat.add_assoc, Nat.add_comm 1 j] using hf, fun k hk' => ?_⟩
          simpa [Nat.add_assoc, Nat.add_comm 1 k] using hk (k + 1) (by omega)

/-- A read block passes iff it is empty or ends below 4096. -/
theorem checkBlock_read (cfg : Config) (a count : Nat) :
    checkBlock cfg .read a count = if count = 0 ∨ a + count ≤ memSize then none else some .addressOutOfRange := by
  split
  · rw [checkBlock_eq_none_iff]
    intro j hj
    rw [checkAddr_eq_none_iff]
    exact ⟨by omega, by simp⟩
  · rw [checkBlock_eq_some_iff]
    refine ⟨memSize - a, by omega, ?_, ?_⟩
    · unfold checkAddr; rw [if_pos (by omega)]
    · intro k hk; rw [checkAddr_eq_none_iff]; exact ⟨by omega, by simp⟩

/-- A nonempty write block faults first as `fontWrite` when it begins low under `lowWrite = fault`, else as
`addressOutOfRange` when it ends past memory. -/
theorem checkBlock_write (cfg : Config) (a count : Nat) (hc : 0 < count) :
    checkBlock cfg .write a count =
      if cfg.lowWrite = .fault ∧ a < programBase then some .fontWrite
      else if a + count ≤ memSize then none else some .addressOutOfRange := by
  split
  · rename_i h
    rw [checkBlock_eq_some_iff]
    refine ⟨0, hc, ?_, by omega⟩
    unfold checkAddr
    have := h.2
    simp only [programBase] at this
    rw [if_neg (by simp only [memSize]; omega), if_pos ⟨rfl, by simp only [programBase]; omega, h.1⟩]
  · rename_i h
    split
    · rw [checkBlock_eq_none_iff]
      intro j hj
      rw [checkAddr_eq_none_iff]
      refine ⟨by omega, fun _ hl => ?_⟩
      have : ¬ a < programBase := fun h' => h ⟨hl, h'⟩
      simp only [programBase] at this ⊢
      omega
    · rw [checkBlock_eq_some_iff]
      refine ⟨memSize - a, by omega, ?_, ?_⟩
      · unfold checkAddr; rw [if_pos (by omega)]
      · intro k hk
        rw [checkAddr_eq_none_iff]
        refine ⟨by omega, fun _ hl => ?_⟩
        have : ¬ a < programBase := fun h' => h ⟨hl, h'⟩
        simp only [programBase] at this ⊢
        omega

/-! ### Block stores and loads (R58) -/

/-- Checked stores one by one, when every check passes, are the unchecked stores. -/
theorem State.storeBytes_of_checked (bs : List Byte) : ∀ (s : State) (a : Nat),
    checkBlock s.cfg .write a bs.length = none → s.storeBytes a bs = .ok { s with mem := s.mem.writeBytes a bs } := by
  induction bs with
  | nil => exact fun s a _ => rfl
  | cons b bs ih =>
    intro s a h
    rw [List.length_cons, checkBlock] at h
    cases hc : checkAddr s.cfg .write a with
    | some f => rw [hc] at h; simp at h
    | none =>
      rw [hc] at h
      simp only [State.storeBytes, State.memWrite, hc]
      exact ih { s with mem := s.mem.write a b } (a + 1) h

/-- A block store (R58, R174): a fault of its first failing address and no byte moved, or all bytes stored. -/
theorem State.storeBlock_eq (s : State) (a : Nat) (bs : List Byte) :
    s.storeBlock a bs =
      match checkBlock s.cfg .write a bs.length with
      | some f => .error f
      | none   => .ok { s with mem := s.mem.writeBytes a bs } := by
  unfold State.storeBlock
  cases h : checkBlock s.cfg .write a bs.length with
  | some f => rfl
  | none => exact State.storeBytes_of_checked bs s a h

theorem State.loadBytes_of_checked (s : State) (count : Nat) : ∀ a : Nat,
    checkBlock s.cfg .read a count = none →
      s.loadBytes a count = .ok ((List.range count).map (fun j => s.mem.read (a + j))) := by
  induction count with
  | zero => exact fun a _ => rfl
  | succ n ih =>
    intro a h
    have ha : checkAddr s.cfg .read a = none := by
      have := (checkBlock_eq_none_iff s.cfg .read (n + 1) a).1 h 0 (by omega)
      simpa using this
    rw [checkBlock, ha] at h
    have hlt := ((checkAddr_eq_none_iff _ _ _).1 ha).1
    rw [State.loadBytes, State.memRead, if_neg (by omega)]
    simp only [ih (a + 1) h]
    congr 1
    rw [List.range_succ_eq_map, List.map_cons, List.map_map]
    congr 1
    apply List.map_congr_left
    intro j _
    simp [Nat.add_assoc, Nat.add_comm 1 j]

/-- A block load (R58, R174): the fault of an address past memory, or all the bytes in address order. -/
theorem State.loadBlock_eq (s : State) (a count : Nat) :
    s.loadBlock a count =
      if count = 0 ∨ a + count ≤ memSize then .ok ((List.range count).map (fun j => s.mem.read (a + j)))
      else .error .addressOutOfRange := by
  have hc := checkBlock_read s.cfg a count
  unfold State.loadBlock
  by_cases h : count = 0 ∨ a + count ≤ memSize
  · rw [if_pos h] at hc ⊢
    rw [hc]
    exact State.loadBytes_of_checked s count a hc
  · rw [if_neg h] at hc ⊢
    rw [hc]

/-! ### The call stack (R27) -/

theorem State.push_of_room (s : State) (w : Word) (h : s.sp.val < 16) :
    s.push w = .ok { s with stack := s.stack.set s.sp.val w, sp := ⟨s.sp.val + 1, by omega⟩ } := by
  rw [State.push, dif_pos h]

theorem State.push_of_full (s : State) (w : Word) (h : s.sp.val = 16) : s.push w = .error .stackOverflow := by
  rw [State.push, dif_neg (by omega)]

theorem State.pop_of_nonempty (s : State) (h : s.sp.val ≠ 0) :
    s.pop = .ok (s.stack[s.sp.val - 1]'(by have := s.sp.isLt; omega),
      { s with sp := ⟨s.sp.val - 1, by have := s.sp.isLt; omega⟩ }) := by
  rw [State.pop, dif_neg h]

theorem State.pop_of_empty (s : State) (h : s.sp.val = 0) : s.pop = .error .stackUnderflow := by
  rw [State.pop, dif_pos h]

/-! ### Draws (R35, R108) -/

/-- A draw changes the model's draws alone. -/
theorem State.drawByte_shape (s : State) : ∃ d, s.drawByte.2 = { s with draws := d } := by
  unfold State.drawByte
  split <;> exact ⟨_, rfl⟩

@[simp] theorem State.drawByte_laid_out (s : State) (b : Byte) (rest : List Byte) (n : Nat) :
    ({ s with draws := ⟨b :: rest, n⟩ } : State).drawByte.1 = b := rfl

theorem State.mem_keyEdges (s : State) (k : Nat) :
    k ∈ s.keyEdges ↔ k < 16 ∧ s.keys.getLsbD k = true ∧ s.prevKeys.getLsbD k = false := by
  simp [State.keyEdges]

/-- `choose(E)` answers no key iff there is none. -/
theorem State.chooseKey_eq_none_iff (s : State) (e : List Nat) : s.chooseKey e = none ↔ e = [] := by
  match e with
  | [] => simp [State.chooseKey]
  | [_] => simp [State.chooseKey]
  | _ :: _ :: _ => simp [State.chooseKey]

/-- A chosen key is one of the set, and choosing changes the model's draws alone. -/
theorem State.chooseKey_some (s t : State) (e : List Nat) (k : Nat) (h : s.chooseKey e = some (k, t)) :
    k ∈ e ∧ ∃ d, t = { s with draws := d } := by
  match e, h with
  | [k'], h =>
    simp only [State.chooseKey, Option.some.injEq, Prod.mk.injEq] at h
    exact ⟨by simp [h.1], s.draws, by simp [← h.2]⟩
  | k1 :: k2 :: ks, h =>
    simp only [State.chooseKey, Option.some.injEq, Prod.mk.injEq] at h
    obtain ⟨d, hd⟩ := s.drawByte_shape
    refine ⟨?_, d, by rw [← h.2, hd]⟩
    have hlt : s.drawByte.1.toNat % (k1 :: k2 :: ks).length < (k1 :: k2 :: ks).length :=
      Nat.mod_lt _ (by simp)
    rw [← h.1, List.getD_eq_getElem _ _ hlt]
    exact List.getElem_mem _

/-- Any key of the set can be chosen (R108): some laying out of the draws gives it. -/
theorem State.chooseKey_admits (s : State) (e : List Nat) (k : Nat) (hk : k ∈ e) (hl : e.length ≤ 256) :
    ∃ d t, ({ s with draws := d } : State).chooseKey e = some (k, t) := by
  match e, hk, hl with
  | [k'], hk, _ => exact ⟨s.draws, s, by simp [State.chooseKey, List.mem_singleton.1 hk]⟩
  | k1 :: k2 :: ks, hk, hl =>
    obtain ⟨j, hj, rfl⟩ := List.getElem_of_mem hk
    refine ⟨⟨[BitVec.ofNat 8 j], 0⟩, ({ s with draws := ⟨[BitVec.ofNat 8 j], 0⟩ } : State).drawByte.2, ?_⟩
    rw [State.chooseKey]
    simp only [State.drawByte_laid_out, BitVec.toNat_ofNat]
    rw [Nat.mod_eq_of_lt (show j < 2 ^ 8 by omega), Nat.mod_eq_of_lt hj, List.getD_eq_getElem _ _ hj]
    simp

theorem State.keyEdges_length (s : State) : s.keyEdges.length ≤ 256 :=
  Nat.le_trans (List.length_filter_le _ _) (by simp)

/-! ### The fetch and the poll -/

/-- The fetch phase passes iff the word lies in memory and, under `strict`, `PC` is even and not low (R101). -/
theorem State.fetchPhase_ok_iff (s : State) (w : Word) :
    s.fetchPhase = .ok w ↔
      s.pc.toNat + 1 < memSize ∧
      (s.cfg.pcCheck = .strict → s.pc.toNat % 2 = 0 ∧ programBase ≤ s.pc.toNat) ∧
      w = wordOfBytes (s.mem.read s.pc.toNat) (s.mem.read (s.pc.toNat + 1)) := by
  unfold State.fetchPhase State.fetchAt
  split
  · simp; omega
  · rename_i h1
    split
    · rename_i h2
      simp only [reduceCtorEq, false_iff]
      rintro ⟨_, h3, _⟩
      have := h3 h2.1
      omega
    · rename_i h2
      simp only [Except.ok.injEq]
      refine ⟨fun hw => ⟨by omega, fun hs => ?_, hw.symm⟩, fun h => h.2.2.symm⟩
      have : ¬ (s.pc.toNat % 2 = 1 ∨ s.pc.toNat < programBase) := fun h => h2 ⟨hs, h⟩
      omega

/-- A poll with no key edge changes nothing (R108). -/
theorem State.poll_no_edge (s : State) (x : Reg) (h : s.keyEdges = []) : s.poll x = s := by
  unfold State.poll
  rw [h]
  rfl

/-- A poll with a key edge captures a key of the edge set (R108). -/
theorem State.poll_edge (s : State) (x : Reg) (h : s.keyEdges ≠ []) :
    ∃ k ∈ s.keyEdges, ∃ d, s.poll x =
      { ({ s with draws := d } : State).writeV x (BitVec.ofNat 8 k) with pc := s.pc + 2, execState := .running } := by
  unfold State.poll
  cases hc : s.chooseKey s.keyEdges with
  | none => exact absurd ((State.chooseKey_eq_none_iff _ _).1 hc) h
  | some kt =>
    obtain ⟨k, t⟩ := kt
    obtain ⟨hk, d, rfl⟩ := State.chooseKey_some _ _ _ _ hc
    exact ⟨k, hk, d, rfl⟩

/-! ### Meanings that may fault -/

/-- An instruction always ends in a next state, its own or the fault's (R106). -/
theorem completeOr_cases (s : State) (r : Except Fault State) :
    (∃ t, r = .ok t ∧ completeOr s r = .next t) ∨ (∃ f, r = .error f ∧ completeOr s r = .next (s.raiseFault f)) := by
  cases r with
  | ok t => exact .inl ⟨t, rfl, rfl⟩
  | error f => exact .inr ⟨f, rfl, rfl⟩

end Sys2Proof.Machine
end

