-- ==== Sys2Proof/Laws/Frame.lean ====
section
/-! SUPPORT. What each building block of a meaning leaves unchanged, in the terms of `Unchanged` (40_cycle.md R105). -/

namespace Sys2Proof.Machine

theorem Unchanged.refl (f : Footprint) (s : State) : Unchanged f s s := by
  constructor <;> intros <;> rfl

theorem Unchanged.writeV (s : State) (x : Reg) (b : Byte) : Unchanged { regs := [x] } s (s.writeV x b) := by
  constructor <;> intros <;> first | rfl | skip
  rename_i r hr
  exact State.readV_writeV_other s x r b (by simpa using hr)

theorem Unchanged.writeFR (s : State) (x : Reg) (r : Byte) (f : Bool) :
    Unchanged { regs := [x, VF] } s (s.writeFR x r f) := by
  obtain ⟨v, hv⟩ := s.writeFR_shape x r f
  constructor <;> intros <;> first | (rw [hv]; done) | skip
  rename_i k hk
  simp only [List.mem_cons, List.not_mem_nil, or_false, not_or] at hk
  rw [State.readV_writeFR, if_neg (fun h => hk.1 h.1), if_neg hk.2]

theorem Unchanged.setPc (s : State) (w : Word) : Unchanged { pc := true } s { s with pc := w } := by
  constructor <;> intros <;> first | rfl | contradiction

theorem Unchanged.setI (s : State) (w : Word) : Unchanged { i := true } s { s with i := w } := by
  constructor <;> intros <;> first | rfl | contradiction

theorem Unchanged.skipIf (s : State) (c : Bool) : Unchanged { pc := true } s (s.skipIf c) := by
  cases c
  · exact Unchanged.refl _ s
  · exact Unchanged.setPc s _

/-- A store of a block changes the bytes of the block alone (R57). -/
theorem Unchanged.storeBytes (s : State) (bs : List Byte) :
    Unchanged { bytes := storeAddrs s bs.length } s { s with mem := s.mem.writeBytes s.i.toNat bs } := by
  constructor <;> intros <;> first | rfl | skip
  rename_i a ha
  have : ¬ (s.i.toNat ≤ a ∧ a < s.i.toNat + bs.length) := by
    rintro ⟨h1, h2⟩
    exact ha (List.mem_map.2 ⟨a - s.i.toNat, List.mem_range.2 (by omega), by omega⟩)
  simp only [Memory.read_writeBytes, if_neg this]

/-- A load of `V0..Vx` changes those registers alone (R176). -/
theorem Unchanged.writeRegs (s : State) (x : Reg) (bs : List Byte) (h : bs.length = x.toNat + 1) :
    Unchanged { regs := regsUpTo x } s (s.writeRegs 0 bs) := by
  obtain ⟨v, hv⟩ := State.writeRegs_shape bs s 0
  constructor <;> intros <;> first | (rw [hv]; done) | skip
  rename_i k hk
  have hx := x.isLt
  have : ¬ k.toNat < x.toNat + 1 := fun hlt =>
    hk (List.mem_map.2 ⟨k.toNat, List.mem_range.2 hlt, by simp⟩)
  rw [State.readV_writeRegs bs s 0 (by omega), if_neg (by omega)]

/-- A smaller footprint is a stronger claim. -/
theorem Unchanged.mono {f g : Footprint} {s t : State} (h : Unchanged f s t) (regs : ∀ r ∈ f.regs, r ∈ g.regs)
    (bytes : ∀ a ∈ f.bytes, a ∈ g.bytes) (i : g.i = false → f.i = false) (pc : g.pc = false → f.pc = false)
    (stack : g.stack = false → f.stack = false) (dt : g.dt = false → f.dt = false) (st : g.st = false → f.st = false)
    (fb : g.fb = false → f.fb = false) (exec : g.exec = false → f.exec = false)
    (draws : g.draws = false → f.draws = false) : Unchanged g s t where
  cfg := h.cfg
  keys := h.keys
  prevKeys := h.prevKeys
  regs := fun r hr => h.regs r (fun hr' => hr (regs r hr'))
  bytes := fun a ha => h.bytes a (fun ha' => ha (bytes a ha'))
  i := fun e => h.i (i e)
  pc := fun e => h.pc (pc e)
  stack := fun e => h.stack (stack e)
  sp := fun e => h.sp (stack e)
  dt := fun e => h.dt (dt e)
  st := fun e => h.st (st e)
  fb := fun e => h.fb (fb e)
  exec := fun e => h.exec (exec e)
  draws := fun e => h.draws (draws e)

/-- Fault entry changes `EXEC` alone (R106). -/
theorem Unchanged.raiseFault (s : State) (f : Fault) : Unchanged { exec := true } s (s.raiseFault f) := by
  constructor <;> intros <;> first | rfl | contradiction

/-! ### The meanings that may fault, solved -/

/-- `Fx33` and `Fx55` through the block store (R173, R175): stored, or the first failing address's fault. -/
theorem completeOr_storeBlock (s : State) (bs : List Byte) (hb : 0 < bs.length) :
    completeOr s (s.storeBlock s.i.toNat bs) =
      if s.cfg.lowWrite = .fault ∧ s.i.toNat < programBase then .next (s.raiseFault .fontWrite)
      else if s.i.toNat + bs.length ≤ memSize then .next { s with mem := s.mem.writeBytes s.i.toNat bs }
      else .next (s.raiseFault .addressOutOfRange) := by
  rw [State.storeBlock_eq, checkBlock_write _ _ _ hb]
  by_cases h1 : s.cfg.lowWrite = .fault ∧ s.i.toNat < programBase
  · simp only [if_pos h1]; rfl
  · by_cases h2 : s.i.toNat + bs.length ≤ memSize
    · simp only [if_neg h1, if_pos h2]; rfl
    · simp only [if_neg h1, if_neg h2]; rfl

/-- `Fx65` (R176), solved. -/
theorem execLoadRegs_eq (x : Reg) (s : State) :
    execLoadRegs x s =
      if s.i.toNat + (x.toNat + 1) ≤ memSize then
        .next (s.writeRegs 0 ((List.range (x.toNat + 1)).map (fun j => s.mem.read (s.i.toNat + j))))
      else .next (s.raiseFault .addressOutOfRange) := by
  unfold execLoadRegs
  rw [State.loadBlock_eq]
  by_cases h : s.i.toNat + (x.toNat + 1) ≤ memSize
  · rw [if_pos (.inr h), if_pos h]; rfl
  · rw [if_neg (by omega), if_neg h]; rfl

/-- `Dxyn` (R192), solved. -/
theorem execDraw_eq (x y : Reg) (n : BitVec 4) (s : State) :
    execDraw x y n s =
      if n.toNat = 0 ∨ s.i.toNat + n.toNat ≤ memSize then
        .next (s.drawSprite x y ((List.range n.toNat).map (fun j => s.mem.read (s.i.toNat + j))))
      else .next (s.raiseFault .addressOutOfRange) := by
  unfold execDraw
  rw [State.loadBlock_eq]
  by_cases h : n.toNat = 0 ∨ s.i.toNat + n.toNat ≤ memSize
  · rw [if_pos h, if_pos h]; rfl
  · rw [if_neg h, if_neg h]; rfl

/-- `00EE` (R120), solved. -/
theorem execRet_eq (s : State) :
    execRet s =
      if s.sp.val = 0 then .next (s.raiseFault .stackUnderflow)
      else .next { s with
        pc := s.stack[s.sp.val - 1]'(by have := s.sp.isLt; omega)
        sp := ⟨s.sp.val - 1, by have := s.sp.isLt; omega⟩ } := by
  unfold execRet
  by_cases h : s.sp.val = 0
  · rw [State.pop_of_empty s h, if_pos h]; rfl
  · rw [State.pop_of_nonempty s h, if_neg h]; rfl

/-- `2nnn` (R122), solved. -/
theorem execCall_eq (nnn : BitVec 12) (s : State) :
    execCall nnn s =
      if h : s.sp.val < 16 then .next { s with
        stack := s.stack.set s.sp.val s.pc
        sp := ⟨s.sp.val + 1, by omega⟩
        pc := nnn.setWidth 16 }
      else .next (s.raiseFault .stackOverflow) := by
  unfold execCall
  by_cases h : s.sp.val < 16
  · rw [State.push_of_room s _ h, dif_pos h]; rfl
  · rw [State.push_of_full s _ (by have := s.sp.isLt; omega), dif_neg h]; rfl

/-- The key index (R210), solved. -/
theorem keyOf_eq (cfg : Config) (b : Byte) :
    keyOf cfg b =
      if b.toNat < 16 ∨ cfg.keyIndex = .mask then .ok (b.toNat % 16) else .error .keyIndexOutOfRange := by
  unfold keyOf
  by_cases h : b.toNat < 16
  · rw [if_pos h, if_pos (.inl h), Nat.mod_eq_of_lt h]
  · rw [if_neg h]
    cases hk : cfg.keyIndex with
    | fault => rw [if_neg (by simp [h])]
    | mask => rw [if_pos (.inr rfl)]

/-- `Ex9E` in one equation (R210, R211). -/
theorem execSkipKeyDown_eq (x : Reg) (s : State) :
    execSkipKeyDown x s =
      if (s.readV x).toNat < 16 ∨ s.cfg.keyIndex = .mask then
        .next (s.skipIf (s.keyDown ((s.readV x).toNat % 16)))
      else .next (s.raiseFault .keyIndexOutOfRange) := by
  unfold execSkipKeyDown
  rw [keyOf_eq]
  by_cases h : (s.readV x).toNat < 16 ∨ s.cfg.keyIndex = .mask
  · rw [if_pos h, if_pos h]; rfl
  · rw [if_neg h, if_neg h]; rfl

/-- `ExA1` in one equation (R210, R212). -/
theorem execSkipKeyUp_eq (x : Reg) (s : State) :
    execSkipKeyUp x s =
      if (s.readV x).toNat < 16 ∨ s.cfg.keyIndex = .mask then
        .next (s.skipIf (!s.keyDown ((s.readV x).toNat % 16)))
      else .next (s.raiseFault .keyIndexOutOfRange) := by
  unfold execSkipKeyUp
  rw [keyOf_eq]
  by_cases h : (s.readV x).toNat < 16 ∨ s.cfg.keyIndex = .mask
  · rw [if_pos h, if_pos h]; rfl
  · rw [if_neg h, if_neg h]; rfl

end Sys2Proof.Machine
end

