-- ==== Sys2Proof/Laws/PerInstr.lean ====
section
/-! SUPPORT. Per-instruction laws of the encoding: the word of an instruction lies in its row of the opcode table
(30_encoding.md R76), and is covered by the table. -/

namespace Sys2Proof.Laws

/-! ### The formats under the table's masks (R72) -/

theorem formatFA_and_class (c : BitVec 4) (nnn : BitVec 12) : formatFA c nnn &&& 0xF000#16 = c ++ 0#12 := by
  rw [formatFA, show (0xF000#16 : BitVec 16) = (0xF#4 ++ 0#12 : BitVec 16) from rfl, BitVec.and_append,
    show (0xF#4 : BitVec 4) = BitVec.allOnes 4 from rfl]
  simp only [BitVec.and_allOnes, BitVec.and_zero]

theorem formatFXK_and_class (c : BitVec 4) (x : Reg) (kk : Byte) : formatFXK c x kk &&& 0xF000#16 = c ++ 0#12 :=
  formatFA_and_class c (x ++ kk)

theorem formatFXYN_and_class (c : BitVec 4) (x y : Reg) (n : BitVec 4) :
    formatFXYN c x y n &&& 0xF000#16 = c ++ 0#12 :=
  formatFA_and_class c (x ++ (y ++ n : BitVec 8))

theorem formatFXK_and_byte (c : BitVec 4) (x : Reg) (kk : Byte) :
    formatFXK c x kk &&& 0xF0FF#16 = c ++ (0#4 ++ kk : BitVec 12) := by
  rw [formatFXK, show (0xF0FF#16 : BitVec 16) = (0xF#4 ++ (0#4 ++ 0xFF#8 : BitVec 12) : BitVec 16) from rfl,
    BitVec.and_append, BitVec.and_append, show (0xF#4 : BitVec 4) = BitVec.allOnes 4 from rfl,
    show (0xFF#8 : BitVec 8) = BitVec.allOnes 8 from rfl]
  simp only [BitVec.and_allOnes, BitVec.and_zero]

theorem formatFXYN_and_nibble (c : BitVec 4) (x y : Reg) (n : BitVec 4) :
    formatFXYN c x y n &&& 0xF00F#16 = c ++ (0#4 ++ (0#4 ++ n : BitVec 8) : BitVec 12) := by
  rw [formatFXYN,
    show (0xF00F#16 : BitVec 16) = (0xF#4 ++ (0#4 ++ (0#4 ++ 0xF#4 : BitVec 8) : BitVec 12) : BitVec 16) from rfl,
    BitVec.and_append, BitVec.and_append, BitVec.and_append, show (0xF#4 : BitVec 4) = BitVec.allOnes 4 from rfl]
  simp only [BitVec.and_allOnes, BitVec.and_zero]

/-! ### Each instruction's word lies in its row -/

/-- The word of `i` matches the row of `i` (R76). -/
def EncodesInItsRow.Statement (i : Instr) : Prop := (Instr.row i).covers (encode i) = true

theorem EncodesInItsRow.clear : EncodesInItsRow.Statement .clear := by unfold EncodesInItsRow.Statement; decide

theorem EncodesInItsRow.ret : EncodesInItsRow.Statement .ret := by unfold EncodesInItsRow.Statement; decide

theorem EncodesInItsRow.jump (nnn : BitVec 12) :
    EncodesInItsRow.Statement (.jump nnn) := by
  simp [EncodesInItsRow.Statement, Instr.row, Row.covers, encode, formatFA_and_class]

theorem EncodesInItsRow.call (nnn : BitVec 12) :
    EncodesInItsRow.Statement (.call nnn) := by
  simp [EncodesInItsRow.Statement, Instr.row, Row.covers, encode, formatFA_and_class]

theorem EncodesInItsRow.skipEqImm (x : Reg) (kk : Byte) :
    EncodesInItsRow.Statement (.skipEqImm x kk) := by
  simp [EncodesInItsRow.Statement, Instr.row, Row.covers, encode, formatFXK_and_class]

theorem EncodesInItsRow.skipNeImm (x : Reg) (kk : Byte) :
    EncodesInItsRow.Statement (.skipNeImm x kk) := by
  simp [EncodesInItsRow.Statement, Instr.row, Row.covers, encode, formatFXK_and_class]

theorem EncodesInItsRow.skipEqReg (x y : Reg) :
    EncodesInItsRow.Statement (.skipEqReg x y) := by
  simp [EncodesInItsRow.Statement, Instr.row, Row.covers, encode, formatFXYN_and_nibble]

theorem EncodesInItsRow.loadImm (x : Reg) (kk : Byte) :
    EncodesInItsRow.Statement (.loadImm x kk) := by
  simp [EncodesInItsRow.Statement, Instr.row, Row.covers, encode, formatFXK_and_class]

theorem EncodesInItsRow.addImm (x : Reg) (kk : Byte) :
    EncodesInItsRow.Statement (.addImm x kk) := by
  simp [EncodesInItsRow.Statement, Instr.row, Row.covers, encode, formatFXK_and_class]

theorem EncodesInItsRow.move (x y : Reg) :
    EncodesInItsRow.Statement (.move x y) := by
  simp [EncodesInItsRow.Statement, Instr.row, Row.covers, encode, formatFXYN_and_nibble]

theorem EncodesInItsRow.or (x y : Reg) :
    EncodesInItsRow.Statement (.or x y) := by
  simp [EncodesInItsRow.Statement, Instr.row, Row.covers, encode, formatFXYN_and_nibble]

theorem EncodesInItsRow.and (x y : Reg) :
    EncodesInItsRow.Statement (.and x y) := by
  simp [EncodesInItsRow.Statement, Instr.row, Row.covers, encode, formatFXYN_and_nibble]

theorem EncodesInItsRow.xor (x y : Reg) :
    EncodesInItsRow.Statement (.xor x y) := by
  simp [EncodesInItsRow.Statement, Instr.row, Row.covers, encode, formatFXYN_and_nibble]

theorem EncodesInItsRow.add (x y : Reg) :
    EncodesInItsRow.Statement (.add x y) := by
  simp [EncodesInItsRow.Statement, Instr.row, Row.covers, encode, formatFXYN_and_nibble]

theorem EncodesInItsRow.sub (x y : Reg) :
    EncodesInItsRow.Statement (.sub x y) := by
  simp [EncodesInItsRow.Statement, Instr.row, Row.covers, encode, formatFXYN_and_nibble]

theorem EncodesInItsRow.shr (x y : Reg) :
    EncodesInItsRow.Statement (.shr x y) := by
  simp [EncodesInItsRow.Statement, Instr.row, Row.covers, encode, formatFXYN_and_nibble]

theorem EncodesInItsRow.subn (x y : Reg) :
    EncodesInItsRow.Statement (.subn x y) := by
  simp [EncodesInItsRow.Statement, Instr.row, Row.covers, encode, formatFXYN_and_nibble]

theorem EncodesInItsRow.shl (x y : Reg) :
    EncodesInItsRow.Statement (.shl x y) := by
  simp [EncodesInItsRow.Statement, Instr.row, Row.covers, encode, formatFXYN_and_nibble]

theorem EncodesInItsRow.skipNeReg (x y : Reg) :
    EncodesInItsRow.Statement (.skipNeReg x y) := by
  simp [EncodesInItsRow.Statement, Instr.row, Row.covers, encode, formatFXYN_and_nibble]

theorem EncodesInItsRow.loadI (nnn : BitVec 12) :
    EncodesInItsRow.Statement (.loadI nnn) := by
  simp [EncodesInItsRow.Statement, Instr.row, Row.covers, encode, formatFA_and_class]

theorem EncodesInItsRow.jumpOffset (nnn : BitVec 12) :
    EncodesInItsRow.Statement (.jumpOffset nnn) := by
  simp [EncodesInItsRow.Statement, Instr.row, Row.covers, encode, formatFA_and_class]

theorem EncodesInItsRow.rand (x : Reg) (kk : Byte) :
    EncodesInItsRow.Statement (.rand x kk) := by
  simp [EncodesInItsRow.Statement, Instr.row, Row.covers, encode, formatFXK_and_class]

theorem EncodesInItsRow.draw (x y : Reg) (n : BitVec 4) :
    EncodesInItsRow.Statement (.draw x y n) := by
  simp [EncodesInItsRow.Statement, Instr.row, Row.covers, encode, formatFXYN_and_class]

theorem EncodesInItsRow.skipKeyDown (x : Reg) :
    EncodesInItsRow.Statement (.skipKeyDown x) := by
  simp [EncodesInItsRow.Statement, Instr.row, Row.covers, encode, formatFXK_and_byte]

theorem EncodesInItsRow.skipKeyUp (x : Reg) :
    EncodesInItsRow.Statement (.skipKeyUp x) := by
  simp [EncodesInItsRow.Statement, Instr.row, Row.covers, encode, formatFXK_and_byte]

theorem EncodesInItsRow.getDelay (x : Reg) :
    EncodesInItsRow.Statement (.getDelay x) := by
  simp [EncodesInItsRow.Statement, Instr.row, Row.covers, encode, formatFXK_and_byte]

theorem EncodesInItsRow.waitKey (x : Reg) :
    EncodesInItsRow.Statement (.waitKey x) := by
  simp [EncodesInItsRow.Statement, Instr.row, Row.covers, encode, formatFXK_and_byte]

theorem EncodesInItsRow.setDelay (x : Reg) :
    EncodesInItsRow.Statement (.setDelay x) := by
  simp [EncodesInItsRow.Statement, Instr.row, Row.covers, encode, formatFXK_and_byte]

theorem EncodesInItsRow.setSound (x : Reg) :
    EncodesInItsRow.Statement (.setSound x) := by
  simp [EncodesInItsRow.Statement, Instr.row, Row.covers, encode, formatFXK_and_byte]

theorem EncodesInItsRow.addI (x : Reg) :
    EncodesInItsRow.Statement (.addI x) := by
  simp [EncodesInItsRow.Statement, Instr.row, Row.covers, encode, formatFXK_and_byte]

theorem EncodesInItsRow.fontAddr (x : Reg) :
    EncodesInItsRow.Statement (.fontAddr x) := by
  simp [EncodesInItsRow.Statement, Instr.row, Row.covers, encode, formatFXK_and_byte]

theorem EncodesInItsRow.bcd (x : Reg) :
    EncodesInItsRow.Statement (.bcd x) := by
  simp [EncodesInItsRow.Statement, Instr.row, Row.covers, encode, formatFXK_and_byte]

theorem EncodesInItsRow.storeRegs (x : Reg) :
    EncodesInItsRow.Statement (.storeRegs x) := by
  simp [EncodesInItsRow.Statement, Instr.row, Row.covers, encode, formatFXK_and_byte]

theorem EncodesInItsRow.loadRegs (x : Reg) :
    EncodesInItsRow.Statement (.loadRegs x) := by
  simp [EncodesInItsRow.Statement, Instr.row, Row.covers, encode, formatFXK_and_byte]

end Sys2Proof.Laws
end

