-- ==== Sys2Proof/Laws/Step.lean ====
section
/-! SUPPORT. What a step can do, said once: every meaning answers a next state, the outcomes of a step by the phase that
decides them, and what a launch builds. -/

namespace Sys2Proof.Machine

/-- Every meaning answers a next state: faults are states (R106, log 8). -/
theorem exec_answers_next (i : Instr) (s : State) : ∃ t, exec i s = .next t := by
  have done : ∀ r, ∃ t, completeOr s r = .next t := fun r => by
    rcases completeOr_cases s r with ⟨t, _, h⟩ | ⟨f, _, h⟩ <;> exact ⟨_, h⟩
  cases i
  case addI x => simp only [exec, execAddI]; split <;> exact ⟨_, rfl⟩
  all_goals first
    | exact ⟨_, rfl⟩
    | exact done _

/-- The outcomes of a step (R100): nothing in `Faulted`; the poll in `AwaitingKey`; in `Running` a fetch-phase fault, an
unknown word's fault, or the meaning of the decoded instruction after the pre-advance. -/
theorem step_cases (s t : State) (h : step s = .next t) :
    (∃ f, s.execState = .faulted f ∧ t = s) ∨
    (∃ x, s.execState = .awaitingKey x ∧ t = (s.poll x).endStep) ∨
    (s.execState = .running ∧ ∃ f, s.fetchPhase = .error f ∧ t = s.raiseFault f) ∨
    (s.execState = .running ∧ ∃ w w', s.fetchPhase = .ok w ∧ decode w = .unknown w' ∧
      t = s.advance.raiseFault .unknownOpcode) ∨
    (s.execState = .running ∧ ∃ w i u, s.fetchPhase = .ok w ∧ decode w = .known i ∧ exec i s.advance = .next u ∧
      t = u.endStep) := by
  unfold step at h
  split at h
  · cases h; exact .inl ⟨_, ‹_›, rfl⟩
  · cases h; exact .inr (.inl ⟨_, ‹_›, rfl⟩)
  · refine .inr (.inr ?_)
    unfold stepRunning at h
    split at h
    · cases h; exact .inl ⟨‹_›, _, ‹_›, rfl⟩
    · refine .inr ?_
      rename_i w hw
      cases hd : decode w with
      | unknown w' =>
        simp only [hd, execOp, execUnknown, endStepResult] at h
        rw [State.endStep_prevKeys_of_faulted _ .unknownOpcode rfl] at h
        cases h; exact .inl ⟨‹_›, w, w', hw, hd, rfl⟩
      | known i =>
        obtain ⟨u, hu⟩ := exec_answers_next i s.advance
        simp only [hd, execOp, hu, endStepResult] at h
        cases h; exact .inr ⟨‹_›, w, i, u, hw, hd, hu, rfl⟩

/-- What a poll leaves alone (R108). -/
theorem State.poll_unchanged (s : State) (x : Reg) :
    Unchanged { regs := [x], pc := true, exec := true, draws := true } s (s.poll x) := by
  by_cases h : s.keyEdges = []
  · rw [State.poll_no_edge s x h]; exact Unchanged.refl _ s
  · obtain ⟨k, _, d, hp⟩ := State.poll_edge s x h
    rw [hp]
    have := Unchanged.writeV { s with draws := d } x (BitVec.ofNat 8 k)
    constructor <;> intros <;> first | rfl | contradiction | skip
    exact this.regs _ ‹_›

/-- What a launch that builds a state builds (R260). -/
theorem State.load_eq_ok_iff (cfg : Config) (draws : Draws) (initFill : Nat → Byte) (image : List Byte) (s : State) :
    State.load cfg draws initFill image = .ok s ↔
      image.length ≤ maxImage ∧
        s = { State.reset with
          cfg := cfg
          mem := Memory.ofBytes (launchByte cfg initFill image)
          draws := draws } := by
  unfold State.load
  by_cases h : image.length > maxImage
  · rw [if_pos h]; exact ⟨fun e => by injection e, fun e => absurd e.1 (by omega)⟩
  · rw [if_neg h]
    exact ⟨fun e => ⟨by omega, (Except.ok.inj e).symm⟩, fun e => by rw [e.2]⟩

/-- The memory of a launch. -/
theorem State.load_mem (cfg : Config) (draws : Draws) (initFill : Nat → Byte) (image : List Byte) (s : State)
    (h : State.load cfg draws initFill image = .ok s) : s.mem = Memory.ofBytes (launchByte cfg initFill image) := by
  rw [((State.load_eq_ok_iff cfg draws initFill image s).1 h).2]

theorem State.load_mem_wf (cfg : Config) (draws : Draws) (initFill : Nat → Byte) (image : List Byte) (s : State)
    (h : State.load cfg draws initFill image = .ok s) : s.mem.wf := by
  rw [State.load_mem cfg draws initFill image s h]
  exact Memory.wf_ofBytes _

end Sys2Proof.Machine
end

