-- ==== Sys2Proof/Tests/Slice0.lean ====
section
/-! SUPPORT. The author's own tests: words written out from 30_encoding.md decode to their instructions, ill-formed
terms are refused, single steps give what the rows of 95_test_vectors.md say, and every statement that has hypotheses
has a state and operands that meet them. -/

namespace Sys2Proof.Machine

/-! ### Helpers -/

/-- The state a step or a meaning answers; reset where it answers none (no test meets that case). -/
def after : Result → State
  | .next t => t
  | _       => State.reset

/-- The start state of 95_test_vectors.md: the word `w` at 0x200 after a load, every parameter at its default. -/
def start (w : Word) : State := State.reset.withFetchWord 16 w.toNat

/-- The state after the one step of a vector. -/
def run (s : State) : State := after (step s)

/-- Whether a result is a next state that is not faulted. -/
def completes : Result → Bool
  | .next t => match t.execState with
    | .faulted _ => false
    | _          => true
  | _ => false

/-! ### WellFormed refuses ill-formed terms (R74, R77) -/

theorem test_wf_refuses_each_unknown_class :
    isInstructionWord 0x0000 = false ∧ isInstructionWord 0x00E1 = false ∧ isInstructionWord 0x5121 = false ∧
    isInstructionWord 0x8128 = false ∧ isInstructionWord 0x812F = false ∧ isInstructionWord 0x9121 = false ∧
    isInstructionWord 0xE100 = false ∧ isInstructionWord 0xF3FF = false := by decide

theorem test_wf_accepts_words : isInstructionWord 0x00E0 = true ∧ isInstructionWord 0xDFFF = true := by decide

/-- An answer `UNKNOWN(W)` for a word a row covers is no well-formed answer. -/
theorem test_wf_refuses_known_word_as_unknown :
    Op.wellFormed (.unknown 0x00E0) = false ∧ Op.wellFormed (.unknown 0x0000) = true := by decide

/-! ### Decoding is right: words written out from R72 and R76 -/

theorem test_decode_fixed : decode 0b0000000011100000 = .known .clear ∧ decode 0b0000000011101110 = .known .ret := by
  decide

theorem test_decode_address :
    decode 0b0001001100000100 = .known (.jump 0x304) ∧ decode 0b0010001100000100 = .known (.call 0x304) ∧
    decode 0b1010001011110000 = .known (.loadI 0x2F0) ∧ decode 0b1011111111111110 = .known (.jumpOffset 0xFFE) := by
  decide

theorem test_decode_register_byte :
    decode 0b0011001101000010 = .known (.skipEqImm 3 0x42) ∧ decode 0b0100001101000001 = .known (.skipNeImm 3 0x41) ∧
    decode 0b0110101001000010 = .known (.loadImm 0xA 0x42) ∧ decode 0b0111000111111111 = .known (.addImm 1 0xFF) ∧
    decode 0b1100001100001111 = .known (.rand 3 0x0F) := by decide

theorem test_decode_two_registers :
    decode 0b0101000100100000 = .known (.skipEqReg 1 2) ∧ decode 0b1001000100100000 = .known (.skipNeReg 1 2) ∧
    decode 0b1000000100100000 = .known (.move 1 2) ∧ decode 0b1000000100100001 = .known (.or 1 2) ∧
    decode 0b1000000100100010 = .known (.and 1 2) ∧ decode 0b1000000100100011 = .known (.xor 1 2) := by decide

theorem test_decode_flag_writers :
    decode 0b1000000100100100 = .known (.add 1 2) ∧ decode 0b1000000100100101 = .known (.sub 1 2) ∧
    decode 0b1000000100100110 = .known (.shr 1 2) ∧ decode 0b1000000100100111 = .known (.subn 1 2) ∧
    decode 0b1000000100101110 = .known (.shl 1 2) := by decide

theorem test_decode_draw_and_keys :
    decode 0b1101000100100101 = .known (.draw 1 2 5) ∧ decode 0b1110000110011110 = .known (.skipKeyDown 1) ∧
    decode 0b1110000110100001 = .known (.skipKeyUp 1) := by decide

theorem test_decode_class_f :
    decode 0b1111001100000111 = .known (.getDelay 3) ∧ decode 0b1111001000001010 = .known (.waitKey 2) ∧
    decode 0b1111001100010101 = .known (.setDelay 3) ∧ decode 0b1111001100011000 = .known (.setSound 3) ∧
    decode 0b1111001000011110 = .known (.addI 2) ∧ decode 0b1111010000101001 = .known (.fontAddr 4) ∧
    decode 0b1111011000110011 = .known (.bcd 6) ∧ decode 0b1111001001010101 = .known (.storeRegs 2) ∧
    decode 0b1111001001100101 = .known (.loadRegs 2) := by decide

/-- Bytes: the byte at the lower address is the high byte (R54); a refusal has its name. -/
theorem test_decode_bytes :
    decodeBytes [0x23, 0x04, 0xFF] = .ok (.call 0x304, [0xFF]) ∧ decodeBytes [0x23] = .error .truncated ∧
    decodeBytes [0x99, 0x99] = .error (.unknownOpcode 0x9999) ∧ decodeTableWord 16 0x2304 = some (.call 0x304) ∧
    decodeTableWord 16 0x9999 = none := by decide

/-! ### Control transfer (95_test_vectors.md 2.2) -/

theorem test_jump : (run (start 0x1234)).pc = 0x234 := by decide

theorem test_call : (run (start 0x2300)).pc = 0x300 ∧ (run (start 0x2300)).sp = 1 ∧ (run (start 0x2300)).stack[0] = 0x202 := by
  decide

theorem test_call_overflow :
    run { start 0x2300 with sp := 16 } = { start 0x2300 with sp := 16, pc := 0x202, execState := .faulted .stackOverflow } := rfl

theorem test_return :
    (run { start 0x00EE with sp := 1, stack := State.reset.stack.set 0 0x206 }).pc = 0x206 ∧
    (run { start 0x00EE with sp := 1, stack := State.reset.stack.set 0 0x206 }).sp = 0 := by decide

theorem test_return_underflow :
    run (start 0x00EE) = { start 0x00EE with pc := 0x202, execState := .faulted .stackUnderflow } := rfl

theorem test_jump_offset :
    (run ((start 0xB300).writeV 0 0x10)).pc = 0x310 ∧ (run ((start 0xBFFF).writeV 0 0xFF)).pc = 0x0FE := by decide

theorem test_skip_eq_imm :
    (run ((start 0x3342).writeV 3 0x42)).pc = 0x204 ∧ (run ((start 0x3341).writeV 3 0x42)).pc = 0x202 := by decide

theorem test_skip_ne_imm :
    (run ((start 0x4342).writeV 3 0x42)).pc = 0x202 ∧ (run ((start 0x4341).writeV 3 0x42)).pc = 0x204 := by decide

theorem test_skip_eq_reg :
    (run (start 0x5110)).pc = 0x204 ∧ (run (((start 0x5120).writeV 1 7).writeV 2 8)).pc = 0x202 := by decide

theorem test_skip_ne_reg :
    (run (((start 0x9120).writeV 1 7).writeV 2 8)).pc = 0x204 ∧ (run (start 0x9110)).pc = 0x202 := by decide

/-- The taken skip at 0xFFE (R130). -/
theorem test_skip_at_top :
    (run { (State.reset) with pc := 0xFFE, mem := [(0xFFE, 0x30)] }).pc = 0x1002 := by decide

/-! ### ALU (95_test_vectors.md 2.1, S1 to S4) -/

theorem test_load_imm : (run (start 0x6A42)).readV 0xA = 0x42 ∧ (run (start 0x6A42)).pc = 0x202 := by decide

theorem test_add_imm :
    (run (((start 0x71FF).writeV 1 0x02).writeV 0xF 0x55)).readV 1 = 0x01 ∧
    (run (((start 0x71FF).writeV 1 0x02).writeV 0xF 0x55)).readV 0xF = 0x55 := by decide

theorem test_move : (run ((start 0x8120).writeV 2 0x9C)).readV 1 = 0x9C := by decide

theorem test_or : (run (((start 0x8121).writeV 1 0xF0).writeV 2 0x0F)).readV 1 = 0xFF := by decide

theorem test_and : (run (((start 0x8122).writeV 1 0xF0).writeV 2 0x3C)).readV 1 = 0x30 := by decide

theorem test_xor : (run (((start 0x8123).writeV 1 0xFF).writeV 2 0x0F)).readV 1 = 0xF0 := by decide

theorem test_add_carry :
    (run (((start 0x8124).writeV 1 0xFF).writeV 2 0x01)).readV 1 = 0x00 ∧
    (run (((start 0x8124).writeV 1 0xFF).writeV 2 0x01)).readV 0xF = 1 := by decide

/-- `y = F` reads the old `VF` (R104). -/
theorem test_add_snapshot :
    (run (((start 0x81F4).writeV 0xF 0x01).writeV 1 0xFF)).readV 1 = 0x00 ∧
    (run (((start 0x81F4).writeV 0xF 0x01).writeV 1 0xFF)).readV 0xF = 1 := by decide

theorem test_sub :
    (run (((start 0x8125).writeV 1 0x03).writeV 2 0x05)).readV 1 = 0xFE ∧
    (run (((start 0x8125).writeV 1 0x03).writeV 2 0x05)).readV 0xF = 0 ∧
    (run (((start 0x8125).writeV 1 0x05).writeV 2 0x05)).readV 0xF = 1 := by decide

/-- `x = F`: the two settings of `vfOrder` differ (R141). -/
theorem test_sub_vf_order :
    (run ((start 0x8F05).writeV 0xF 0x03)).readV 0xF = 0x03 ∧
    (run { (start 0x8F05).writeV 0xF 0x03 with cfg := { defaultConfig with vfOrder := .resultThenFlag } }).readV 0xF = 1 := by
  decide

theorem test_shr :
    (run (((start 0x8126).writeV 1 0x05).writeV 2 0xF0)).readV 1 = 0x02 ∧
    (run (((start 0x8126).writeV 1 0x05).writeV 2 0xF0)).readV 0xF = 1 := by decide

theorem test_shr_vy :
    (run { ((start 0x8126).writeV 1 0x05).writeV 2 0xF0 with cfg := { defaultConfig with shiftSrc := .vy } }).readV 1 = 0x78 ∧
    (run { ((start 0x8126).writeV 1 0x05).writeV 2 0xF0 with cfg := { defaultConfig with shiftSrc := .vy } }).readV 0xF = 0 := by
  decide

theorem test_subn :
    (run (((start 0x8127).writeV 1 10).writeV 2 3)).readV 1 = 0xF9 ∧
    (run (((start 0x8127).writeV 1 10).writeV 2 3)).readV 0xF = 0 ∧
    (run (((start 0x8127).writeV 1 3).writeV 2 10)).readV 0xF = 1 := by decide

theorem test_shl :
    (run ((start 0x812E).writeV 1 0x81)).readV 1 = 0x02 ∧ (run ((start 0x812E).writeV 1 0x81)).readV 0xF = 1 := by decide

/-- `x = F` under both orders (R158, R141). -/
theorem test_shl_vf_order :
    (run ((start 0x8F0E).writeV 0xF 0x80)).readV 0xF = 0 ∧
    (run { (start 0x8F0E).writeV 0xF 0x80 with cfg := { defaultConfig with vfOrder := .resultThenFlag } }).readV 0xF = 1 := by
  decide

theorem test_rand_laid_out :
    (run { start 0xC30F with draws := ⟨[0xAB], 0⟩ }).readV 3 = 0x0B ∧
    (run { start 0xC30F with draws := ⟨[0xAB], 0⟩ }).draws = ⟨[], 1⟩ := by decide

/-- Whatever the draw, a mask of 0 gives 0 (R160). -/
theorem test_rand_masked : (run (start 0xC300)).readV 3 = 0x00 := by
  show Config.freeByte 0 &&& 0 = 0
  simp

/-! ### Address register and memory (95_test_vectors.md 2.4) -/

theorem test_load_i : (run (start 0xA2F0)).i = 0x2F0 := by decide

theorem test_add_i :
    (run { (start 0xF21E).writeV 2 0x01 with i := 0x0FFF }).i = 0x1000 ∧
    (run { (start 0xF21E).writeV 2 0x01 with i := 0x0FFF }).readV 0xF = 1 ∧
    (run { (start 0xF21E).writeV 2 0x01 with i := 0xFFFF }).i = 0 ∧
    (run { (start 0xF21E).writeV 2 0x01 with i := 0xFFFF }).readV 0xF = 0 := by decide

/-- The old `VF` is added, then overwritten (R171, R104). -/
theorem test_add_i_snapshot :
    (run { (start 0xFF1E).writeV 0xF 0x05 with i := 0x0100 }).i = 0x0105 ∧
    (run { (start 0xFF1E).writeV 0xF 0x05 with i := 0x0100 }).readV 0xF = 0 := by decide

theorem test_font_addr :
    (run ((start 0xF429).writeV 4 0x0A)).i = 0x32 ∧ (run ((start 0xF429).writeV 4 0xFF)).i = 0x4FB := by decide

theorem test_bcd :
    (run { (start 0xF033).writeV 0 254 with i := 0x300 }).mem.read 0x300 = 2 ∧
    (run { (start 0xF033).writeV 0 254 with i := 0x300 }).mem.read 0x301 = 5 ∧
    (run { (start 0xF033).writeV 0 254 with i := 0x300 }).mem.read 0x302 = 4 := by decide

theorem test_bcd_faults :
    run { (start 0xF033).writeV 0 7 with i := 0xFFE } =
      { (start 0xF033).writeV 0 7 with i := 0xFFE, pc := 0x202, execState := .faulted .addressOutOfRange } ∧
    run { (start 0xF033).writeV 0 7 with i := 0x1FF } =
      { (start 0xF033).writeV 0 7 with i := 0x1FF, pc := 0x202, execState := .faulted .fontWrite } := ⟨rfl, rfl⟩

theorem test_store_regs :
    (run { (((start 0xF255).writeV 0 1).writeV 1 2).writeV 2 3 with i := 0x400 }).mem.read 0x402 = 3 ∧
    (run { (((start 0xF255).writeV 0 1).writeV 1 2).writeV 2 3 with i := 0x400 }).i = 0x400 := by decide

theorem test_store_regs_top :
    (run { (start 0xFF55).writeV 0xF 9 with i := 0xFF0 }).mem.read 0xFFF = 9 ∧
    (run { start 0xFF55 with i := 0xFF1 }).execState = .faulted .addressOutOfRange ∧
    (run { start 0xF155 with i := 0x1FF }).execState = .faulted .fontWrite := by decide

/-- Reads below 0x200 are allowed: glyph 0 (R176, R33). -/
theorem test_load_regs :
    (run (start 0xF465)).readV 0 = 0xF0 ∧ (run (start 0xF465)).readV 3 = 0x90 ∧ (run (start 0xF465)).readV 4 = 0xF0 := by
  decide

theorem test_load_regs_fault :
    run { (start 0xF165).writeV 0 0x33 with i := 0xFFF } =
      { (start 0xF165).writeV 0 0x33 with i := 0xFFF, pc := 0x202, execState := .faulted .addressOutOfRange } := rfl

/-! ### Display (95_test_vectors.md 2.5) -/

/-- A display with one pixel on. -/
def onePixel (r : Fin 32) (c : Fin 64) : Display := Display.blank.toggle r c

theorem test_clear : (run { start 0x00E0 with fb := onePixel 5 5 }).fb.pixel 5 5 = false := by decide

/-- Glyph 0 at the origin: rows F0 and 90. -/
theorem test_draw_glyph :
    (run (start 0xD125)).fb.pixel 0 3 = true ∧ (run (start 0xD125)).fb.pixel 0 4 = false ∧
    (run (start 0xD125)).fb.pixel 1 1 = false ∧ (run (start 0xD125)).fb.pixel 1 3 = true ∧
    (run (start 0xD125)).fb.pixel 4 0 = true ∧ (run (start 0xD125)).readV 0xF = 0 := by decide

/-- 0xFF at column 60: clipped, or wrapped to columns 0..3. -/
theorem test_draw_edge :
    (run ({ (start 0xD121).writeV 1 60 with i := 0x300, mem := (start 0xD121).mem.write 0x300 0xFF })).fb.pixel 0 63 = true ∧
    (run ({ (start 0xD121).writeV 1 60 with i := 0x300, mem := (start 0xD121).mem.write 0x300 0xFF })).fb.pixel 0 0 = false ∧
    (run ({ (start 0xD121).writeV 1 60 with
      i := 0x300, mem := (start 0xD121).mem.write 0x300 0xFF, cfg := { defaultConfig with drawEdge := .wrap } })).fb.pixel 0 3
        = true := by decide

/-! ### Input, timers and host transactions (95_test_vectors.md 2.6) -/

theorem test_skip_key_down :
    (run { (start 0xE19E).writeV 1 5 with keys := 0x0020 }).pc = 0x204 ∧ (run ((start 0xE19E).writeV 1 5)).pc = 0x202 ∧
    (run ((start 0xE19E).writeV 1 0x10)).execState = .faulted .keyIndexOutOfRange ∧
    (run { (start 0xE19E).writeV 1 0x15 with keys := 0x0020, cfg := { defaultConfig with keyIndex := .mask } }).pc = 0x204 := by
  decide

theorem test_skip_key_up :
    (run ((start 0xE1A1).writeV 1 5)).pc = 0x204 ∧ (run { (start 0xE1A1).writeV 1 5 with keys := 0x0020 }).pc = 0x202 ∧
    (run ((start 0xE1A1).writeV 1 0xFF)).execState = .faulted .keyIndexOutOfRange := by decide

theorem test_get_delay : (run { start 0xF307 with dt := 0x3C }).readV 3 = 0x3C := by decide

theorem test_set_delay : (run ((start 0xF315).writeV 3 5)).dt = 5 ∧ (run ((start 0xF315).writeV 3 5)).st = 0 := by decide

theorem test_set_sound :
    (run ((start 0xF318).writeV 3 0x10)).st = 0x10 ∧ (run ((start 0xF318).writeV 3 0x10)).soundOn = true := by decide

/-- A key held when `Fx0A` executes: it waits, and the executing step records the latch (R214, R109). -/
theorem test_wait_key :
    run { start 0xF20A with keys := 0x0008 } =
      { start 0xF20A with keys := 0x0008, prevKeys := 0x0008, execState := .awaitingKey 2 } := rfl

/-- A single edge is captured without a draw; a held key is not captured (R108). -/
theorem test_poll :
    (run { start 0xF20A with execState := .awaitingKey 2, keys := 0x0080 }).readV 2 = 7 ∧
    (run { start 0xF20A with execState := .awaitingKey 2, keys := 0x0080 }).pc = 0x202 ∧
    (run { start 0xF20A with execState := .awaitingKey 2, keys := 0x0080, prevKeys := 0x0080 }).execState = .awaitingKey 2 := by
  decide

theorem test_tick_floor :
    ({ State.reset with dt := 5, st := 0 } : State).tick.dt = 4 ∧ ({ State.reset with dt := 5, st := 0 } : State).tick.st = 0 ∧
    ({ State.reset with dt := 3, execState := .faulted .unknownOpcode } : State).tick.dt = 3 := by decide

/-! ### The fetch phase (95_test_vectors.md 2.3) -/

theorem test_fetch_faults :
    (run { State.reset with pc := 0x201 }) = { State.reset with pc := 0x201, execState := .faulted .pcInvariant } ∧
    (run { State.reset with pc := 0x1FE }).execState = .faulted .pcInvariant ∧
    (run { State.reset with pc := 0xFFF }).execState = .faulted .addressOutOfRange := ⟨rfl, rfl, rfl⟩

theorem test_fetch_odd_under_bounds :
    (run { State.reset with
      pc := 0x203, mem := [(0x203, 0x60), (0x204, 0x42)], cfg := { defaultConfig with pcCheck := .bounds } }).readV 0 = 0x42 ∧
    (run { State.reset with
      pc := 0x203, mem := [(0x203, 0x60), (0x204, 0x42)], cfg := { defaultConfig with pcCheck := .bounds } }).pc = 0x205 := by
  decide

/-- The empty image: word 0x0000 (R262, R77). -/
theorem test_unknown_word :
    run State.reset = { State.reset with pc := 0x202, execState := .faulted .unknownOpcode } ∧
    run (start 0x9999) = { start 0x9999 with pc := 0x202, execState := .faulted .unknownOpcode } := ⟨rfl, rfl⟩

/-! ### Witnesses: a state and operands that meet each statement's hypotheses, clause by clause -/

/-- The default start with another configuration. -/
def startCfg (w : Word) (cfg : Config) : State := { start w with cfg := cfg }

theorem test_witness_load :
    (List.replicate 0xE00 (0 : Byte)).length ≤ 0xE00 ∧ (List.replicate 0xE01 (0 : Byte)).length > 0xE00 ∧
    ([] : List Byte).length ≤ 0xE00 := by
  rw [List.length_replicate, List.length_replicate]
  exact ⟨Nat.le_refl _, Nat.lt_succ_self _, Nat.zero_le _⟩

theorem test_witness_every_word :
    isInstructionWord 0x00EE = true ∧ isInstructionWord 0x00EF = false := by decide

theorem test_witness_rows : Instr.clear.row ∈ opcodeTable ∧ Instr.clear.row.covers 0x00E0 = true := by decide

/-- Both endings of a step that runs an instruction: completed, and faulted. -/
theorem test_witness_step_runs :
    (start 0x6A42).execState = .running ∧ (start 0x6A42).fetchPhase = .ok 0x6A42 ∧
    decode 0x6A42 = .known (.loadImm 0xA 0x42) ∧ completes (exec (.loadImm 0xA 0x42) (start 0x6A42).advance) = true ∧
    (start 0x00EE).fetchPhase = .ok 0x00EE ∧ completes (exec .ret (start 0x00EE).advance) = false := by decide

theorem test_witness_unknown :
    (start 0x9999).execState = .running ∧ (start 0x9999).fetchPhase = .ok 0x9999 ∧
    isInstructionWord 0x9999 = false := by decide

/-- The three clauses of the fetch phase at the ends of their ranges, under both settings of `pcCheck`. -/
theorem test_witness_fetch :
    State.reset.execState = .running ∧ State.reset.cfg.pcCheck = .strict ∧
    (0xFFF#16).toNat + 1 ≥ 4096 ∧ (0xFFE#16).toNat + 1 < 4096 ∧ (0xFFE#16).toNat % 2 = 0 ∧
    (0xFFD#16).toNat + 1 < 4096 ∧ (0xFFD#16).toNat % 2 = 1 ∧ (0x1FE#16).toNat < 0x200 ∧
    (startCfg 0 { defaultConfig with pcCheck := .bounds }).cfg.pcCheck = .bounds := by decide

/-- A fetch-phase fault and an execute-phase fault. -/
theorem test_witness_precise :
    step { State.reset with pc := 0x201 } = .next { State.reset with pc := 0x201, execState := .faulted .pcInvariant } ∧
    step (start 0x00EE) = .next { start 0x00EE with pc := 0x202, execState := .faulted .stackUnderflow } ∧
    (start 0x00EE).fetchPhase = .ok 0x00EE := ⟨rfl, rfl, rfl⟩

/-- One instruction and state for each reason a meaning raises. -/
theorem test_witness_causes :
    (after (exec (.call 0x300) { State.reset with sp := 16 })).execState = .faulted .stackOverflow ∧
    (after (exec .ret State.reset)).execState = .faulted .stackUnderflow ∧
    (after (exec (.skipKeyUp 1) (State.reset.writeV 1 0x10))).execState = .faulted .keyIndexOutOfRange ∧
    (after (exec (.storeRegs 0) { State.reset with i := 0x1FF })).execState = .faulted .fontWrite ∧
    (after (exec (.bcd 0) { State.reset with i := 0xFFE })).execState = .faulted .addressOutOfRange ∧
    (after (exec (.loadRegs 1) { State.reset with i := 0xFFF })).execState = .faulted .addressOutOfRange ∧
    (after (exec (.draw 0 0 2) { State.reset with i := 0xFFF })).execState = .faulted .addressOutOfRange := by decide

/-- In `Faulted`: a transaction that is no load, and a load that builds a state. -/
theorem test_witness_faulted :
    transact (.setKeys 1) { State.reset with execState := .faulted .fontWrite } =
      .next (.done, { State.reset with execState := .faulted .fontWrite, keys := 1 }) ∧
    transact .step { State.reset with execState := .faulted .fontWrite } =
      .next (.exec (.faulted .fontWrite), { State.reset with execState := .faulted .fontWrite }) ∧
    ∃ t, transact (.load (fun _ => 0) []) { State.reset with execState := .faulted .fontWrite } = .next (.done, t) :=
  ⟨rfl, rfl, _, rfl⟩

theorem test_witness_prev_keys :
    (run { start 0x6A42 with keys := 5 }).prevKeys = 5 ∧ (run { start 0x6A42 with keys := 5 }).execState = .running ∧
    (run { start 0x0000 with keys := 5 }).prevKeys = 0 ∧
    (run { start 0x0000 with keys := 5 }).execState = .faulted .unknownOpcode := by decide

/-- Awaiting a key with no edge (a held key), and with the edges 4 and 9. -/
theorem test_witness_poll :
    ({ State.reset with execState := .awaitingKey 2, keys := 8, prevKeys := 8 } : State).keyEdges = [] ∧
    ({ State.reset with execState := .awaitingKey 2, keys := 0x0210 } : State).keyEdges = [4, 9] ∧
    ({ State.reset with execState := .awaitingKey 2, keys := 0x0210 } : State).keyEdge 9 ∧
    ({ State.reset with execState := .awaitingKey 2, keys := 0x8001 } : State).keyEdge 15 :=
  ⟨rfl, rfl, by unfold State.keyEdge; decide, by unfold State.keyEdge; decide⟩

/-- The clauses of a flag-writing result: `x` other than `F`, and `x = F` under each `vfOrder`. -/
theorem test_witness_result_and_flag :
    (0 : Reg) ≠ VF ∧ State.reset.cfg.vfOrder = .flagThenResult ∧
    (startCfg 0 { defaultConfig with vfOrder := .resultThenFlag }).cfg.vfOrder = .resultThenFlag := by decide

theorem test_witness_shift :
    (State.reset.cfg.shiftSrc = .vx ∧ (0x80 : Nat) = ((State.reset.writeV 1 0x80).readV 1).toNat) ∧
    (startCfg 0 { defaultConfig with shiftSrc := .vy }).cfg.shiftSrc = .vy := by decide

theorem test_witness_rand : (0x0B : Byte) &&& ~~~0x0F = 0 ∧ (0 : Byte) &&& ~~~0 = 0 := by decide

/-- The depths where the clauses meet: 15 and 16 for a call, 0 and 1 for a return. -/
theorem test_witness_stack :
    ({ State.reset with sp := 15 } : State).sp.val < 16 ∧ ({ State.reset with sp := 16 } : State).sp.val = 16 ∧
    completes (exec (.call 0x300) { State.reset with sp := 15 }) = true ∧
    0 < ({ State.reset with sp := 1 } : State).sp.val ∧ State.reset.sp.val = 0 ∧
    completes (exec .ret { State.reset with sp := 16 }) = true := by decide

theorem test_witness_add_i :
    State.reset.cfg.addIFlag = .set ∧
    (startCfg 0 { defaultConfig with addIFlag := .unchanged }).cfg.addIFlag = .unchanged := by decide

/-- The ends of the stored range: 0x200 and 0xFFD run, 0x1FF and 0xFFE fault, and 0x1FF runs under `allow`. -/
theorem test_witness_bcd :
    completes (exec (.bcd 1) { State.reset with i := 0x200 }) = true ∧
    completes (exec (.bcd 1) { State.reset with i := 0xFFD }) = true ∧
    completes (exec (.bcd 1) { State.reset with i := 0x1FF }) = false ∧
    completes (exec (.bcd 1) { State.reset with i := 0xFFE }) = false ∧
    completes (exec (.bcd 1) { startCfg 0 { defaultConfig with lowWrite := .allow } with i := 0x1FF }) = true := by decide

theorem test_witness_store :
    completes (exec (.storeRegs 0xF) { State.reset with i := 0xFF0 }) = true ∧
    completes (exec (.storeRegs 0xF) { State.reset with i := 0xFF1 }) = false ∧
    completes (exec (.storeRegs 0) { State.reset with i := 0x200 }) = true ∧
    completes (exec (.storeRegs 0) { State.reset with i := 0x1FF }) = false ∧
    completes (exec (.storeRegs 0) { startCfg 0 { defaultConfig with lowWrite := .allow } with i := 0 }) = true := by decide

theorem test_witness_load_regs :
    completes (exec (.loadRegs 0xF) { State.reset with i := 0xFF0 }) = true ∧
    completes (exec (.loadRegs 0xF) { State.reset with i := 0xFF1 }) = false := by decide

/-- `V0` and `V1` stored at the highest address a fetch reaches and fetched there; digits stored at 0x300 and fetched as
both bytes of 0x300 and as the high byte of 0x302; and a stored byte that is the low byte of a fetch at an odd address
under `bounds`. -/
theorem test_witness_stored_fetched :
    (0xFFE#16).toNat + 1 < 4096 ∧ (0xFFE#16).toNat % 2 = 0 ∧ 0x200 ≤ (0xFFE#16).toNat ∧
    (0xFFE#16).toNat + (1 : Reg).toNat < 4096 ∧ (0xFFE#16).toNat + 1 = (0xFFE#16).toNat + (1 : Reg).toNat ∧
    completes (exec (.storeRegs 1) { State.reset with i := 0xFFE }) = true ∧
    (0x302#16).toNat = (0x300#16).toNat + 2 ∧ completes (exec (.bcd 0) { State.reset with i := 0x300 }) = true ∧
    (0x2FF#16).toNat + 1 = (0x300#16).toNat + (0 : Reg).toNat ∧
    completes (exec (.storeRegs 0) { startCfg 0 { defaultConfig with pcCheck := .bounds } with i := 0x300 }) = true := by
  decide

/-- The digits of 254 stored at 0x300 are fetched there as 0x0205 (R173, R65). -/
theorem test_bcd_fetched :
    ({ after (exec (.bcd 0) { State.reset.writeV 0 254 with i := 0x300 }) with pc := 0x300 } : State).fetchPhase =
      .ok 0x0205 := by decide

theorem test_witness_low_memory :
    (start 0xF033).cfg.lowWrite = .fault ∧ completes (step { start 0xF033 with i := 0x300 }) = true := by decide

theorem test_witness_canonical :
    Memory.wf [(0x300, 5), (0x301, 7)] ∧ ¬ Memory.wf [(0x301, 7), (0x300, 5)] ∧ ¬ Memory.wf [(0x300, 0)] := by decide

/-- The last address a sprite may end at, and height 0 at an `I` past memory. -/
theorem test_witness_draw :
    completes (exec (.draw 1 2 1) { State.reset with i := 0xFFF }) = true ∧
    completes (exec (.draw 1 2 2) { State.reset with i := 0xFFF }) = false ∧
    completes (exec (.draw 1 2 0) { State.reset with i := 0xFFFF }) = true := by decide

/-- A covered pixel and one that is not, under `clip` and under `wrap` (glyph 0 at column 62). -/
theorem test_witness_covers :
    (State.reset.writeV 1 62).covers 1 2 5 0 63 ∧
    ({ State.reset.writeV 1 62 with cfg := { defaultConfig with drawEdge := .wrap } } : State).covers 1 2 5 0 1 :=
  ⟨⟨0, 1, by decide, by decide, by decide, rfl, rfl⟩, ⟨0, 3, by decide, by decide, by decide, rfl, rfl⟩⟩

/-- No pixel is erased on a blank display; one is on a display that has a covered pixel on. -/
theorem test_witness_collision :
    (after (exec (.draw 1 2 5) State.reset)).readV VF = 0 ∧
    (after (exec (.draw 1 2 5) { State.reset with fb := onePixel 0 1 })).readV VF = 1 := by decide

theorem test_witness_draw_twice :
    State.reset.i.toNat + (5 : BitVec 4).toNat ≤ 4096 ∧ completes (exec (.draw 1 2 5) State.reset) = true ∧
    (after (exec (.draw 1 2 5) State.reset)).spriteCol 1 = State.reset.spriteCol 1 ∧
    (after (exec (.draw 1 2 5) State.reset)).spriteRow 2 = State.reset.spriteRow 2 := by decide

/-- Index 15 and, past it, 16 under `mask` and under `fault`. -/
theorem test_witness_key_index :
    ((State.reset.writeV 1 0x0F).readV 1).toNat < 16 ∧ ((State.reset.writeV 1 0x10).readV 1).toNat ≥ 16 ∧
    State.reset.cfg.keyIndex = .fault ∧
    (startCfg 0 { defaultConfig with keyIndex := .mask }).cfg.keyIndex = .mask := by decide

theorem test_witness_executes_wait : (start 0xF20A).executes (.waitKey 2) := ⟨rfl, 0xF20A, by decide, by decide⟩

theorem test_witness_tick :
    (∃ f, ({ State.reset with execState := .faulted .fontWrite } : State).execState = .faulted f) ∧
    ∀ f, State.reset.execState ≠ .faulted f := ⟨⟨_, rfl⟩, fun _ h => by cases h⟩

theorem test_witness_transact :
    transact .tick { State.reset with dt := 2 } = .next (.done, { State.reset with dt := 1 }) := rfl

theorem test_witness_frame : exec (.loadI 0x2F0) State.reset = .next { State.reset with i := 0x2F0 } := rfl

/-- A step that changes each component the statement names. -/
theorem test_witness_changes :
    (run (start 0xA2F0)).i ≠ (start 0xA2F0).i ∧ (run (start 0x2300)).sp ≠ (start 0x2300).sp ∧
    (run (start 0x2300)).stack ≠ (start 0x2300).stack ∧
    (run ((start 0xF315).writeV 3 5)).dt ≠ ((start 0xF315).writeV 3 5).dt ∧
    (run ((start 0xF318).writeV 3 5)).st ≠ ((start 0xF318).writeV 3 5).st ∧
    (run (start 0xD125)).fb.pixel 0 0 ≠ (start 0xD125).fb.pixel 0 0 ∧
    (run { (start 0xF033).writeV 0 7 with i := 0x300 }).mem.read 0x302 ≠ (start 0xF033).mem.read 0x302 := by decide

/-- The invariant in a state with a stacked return address that awaits a key. -/
theorem test_witness_inv :
    ({ start 0xF20A with sp := 1, stack := State.reset.stack.set 0 0x206, execState := .awaitingKey 2 } : State).Inv := by
  refine ⟨by decide, by decide, fun k hk => ?_, fun x hx => ?_⟩
  · have : k = 0 := by ext; simpa using hk
    subst this; unfold isReturnAddress; decide
  · have : x = 2 := by injection hx with h; exact h.symm
    subst this; decide

/-- A launch, and a transaction in a state that meets the invariant. -/
theorem test_witness_transaction_inv :
    (∃ s, State.load defaultConfig Draws.fresh (fun _ => 7) [0x12, 0x00] = .ok s) ∧
    State.reset.Inv ∧ transact (.setKeys 0x0010) State.reset = .next (.done, { State.reset with keys := 0x0010 }) :=
  ⟨⟨_, rfl⟩, ⟨by decide, by decide, fun k hk => absurd hk (Nat.not_lt_zero _), fun x hx => by cases hx⟩, rfl⟩

/-- Launched with an empty image, given a key and ticked. -/
theorem test_witness_reachable : ∃ s, Reachable s ∧ s.keys = 0x0010 := by
  obtain ⟨s0, h0⟩ : ∃ s0, State.load defaultConfig Draws.fresh (fun _ => 0) [] = .ok s0 := ⟨_, rfl⟩
  refine ⟨(s0.setKeys 0x0010).tick, ⟨defaultConfig, Draws.fresh, fun _ => 0, [], s0, [.setKeys 0x0010, .tick], h0, rfl⟩, ?_⟩
  unfold State.tick
  split <;> rfl

theorem test_witness_final_good : (start 0x1200).finalGood := ⟨rfl, by decide⟩

theorem test_witness_placed : (0xFFFF : Nat) < 2 ^ 16 ∧ decodeTableWord 16 0xFFFF = none ∧
    decodeTableWord 16 0xFF65 = some (.loadRegs 0xF) := by decide

end Sys2Proof.Machine
end

/-! ## The state (10_state.md): what a step keeps, what it may change, the canonical memory, the launch -/

namespace Sys2Proof.Laws

/-! ### A decoded word is its instruction's word (30_encoding.md R75, R76) -/

theorem formatFA_of_fields (w : Word) (c : BitVec 4) (hc : (Word.opClass w).toNat = c.toNat) :
    formatFA c (Word.fieldNNN w) = w := by
  rw [← BitVec.eq_of_toNat_eq hc, word_eq_formatFA]

theorem formatFXK_of_fields (w : Word) (c : BitVec 4) (kk : Byte) (hc : (Word.opClass w).toNat = c.toNat)
    (hk : (Word.fieldKK w).toNat = kk.toNat) : formatFXK c (Word.fieldX w) kk = w := by
  rw [← BitVec.eq_of_toNat_eq hc, ← BitVec.eq_of_toNat_eq hk, word_eq_formatFXK]

theorem formatFXYN_of_fields (w : Word) (c n : BitVec 4) (hc : (Word.opClass w).toNat = c.toNat)
    (hn : (Word.fieldN w).toNat = n.toNat) : formatFXYN c (Word.fieldX w) (Word.fieldY w) n = w := by
  rw [← BitVec.eq_of_toNat_eq hc, ← BitVec.eq_of_toNat_eq hn, word_eq_formatFXYN]

theorem encode_of_decodeClass0 (w : Word) (i : Instr) (h : decodeClass0 w = .known i) : encode i = w := by
  unfold decodeClass0 at h
  split at h
  · cases h; exact Eq.symm ‹_›
  · split at h <;> cases h
    exact Eq.symm ‹_›

theorem encode_of_decodeClass8 (w : Word) (i : Instr) (hc : (Word.opClass w).toNat = 0x8)
    (h : decodeClass8 w = .known i) : encode i = w := by
  unfold decodeClass8 at h
  split at h <;> cases h <;> exact formatFXYN_of_fields w _ _ hc ‹_›

theorem encode_of_decodeClassE (w : Word) (i : Instr) (hc : (Word.opClass w).toNat = 0xE)
    (h : decodeClassE w = .known i) : encode i = w := by
  unfold decodeClassE at h
  split at h <;> cases h <;> exact formatFXK_of_fields w _ _ hc ‹_›

theorem encode_of_decodeClassF (w : Word) (i : Instr) (hc : (Word.opClass w).toNat = 0xF)
    (h : decodeClassF w = .known i) : encode i = w := by
  unfold decodeClassF at h
  split at h <;> cases h <;> exact formatFXK_of_fields w _ _ hc ‹_›

/-- A word that decodes to an instruction is that instruction's word (R75, R76). -/
theorem encode_of_decode (w : Word) (i : Instr) (h : decode w = .known i) : encode i = w := by
  unfold decode at h
  split at h <;> rename_i hc
  · exact encode_of_decodeClass0 w i h
  · cases h; exact formatFA_of_fields w _ hc
  · cases h; exact formatFA_of_fields w _ hc
  · cases h; exact formatFXK_of_fields w _ _ hc rfl
  · cases h; exact formatFXK_of_fields w _ _ hc rfl
  · split at h <;> cases h
    exact formatFXYN_of_fields w _ _ hc (congrArg BitVec.toNat ‹_›)
  · cases h; exact formatFXK_of_fields w _ _ hc rfl
  · cases h; exact formatFXK_of_fields w _ _ hc rfl
  · exact encode_of_decodeClass8 w i hc h
  · split at h <;> cases h
    exact formatFXYN_of_fields w _ _ hc (congrArg BitVec.toNat ‹_›)
  · cases h; exact formatFA_of_fields w _ hc
  · cases h; exact formatFA_of_fields w _ hc
  · cases h; exact formatFXK_of_fields w _ _ hc rfl
  · cases h; exact formatFXYN_of_fields w _ _ hc rfl
  · exact encode_of_decodeClassE w i hc h
  · have hlt := (Word.opClass w).isLt
    have hF : (Word.opClass w).toNat = 0xF := by simp only [imp_false] at *; omega
    exact encode_of_decodeClassF w i hF h

end Sys2Proof.Laws

namespace Sys2Proof.Machine

/-! ### The frame of every instruction (40_cycle.md R105) -/

@[simp] theorem State.firstRegs_length (s : State) (x : Reg) : (s.firstRegs (x.toNat + 1)).length = x.toNat + 1 := by
  have := x.isLt
  simp [State.firstRegs]
  omega

/-- A footprint that gains `EXEC` is a weaker claim. -/
theorem Unchanged.allowExec {f : Footprint} {s t : State} (h : Unchanged f s t) :
    Unchanged { f with exec := true } s t :=
  { h with exec := by simp }

/-- Fault entry stays in every footprint that holds `EXEC`. -/
theorem Unchanged.raiseFault_of_exec {g : Footprint} (hg : g.exec = true) (s : State) (f : Fault) :
    Unchanged g s (s.raiseFault f) := by
  constructor <;> intros <;> first | rfl | simp_all

/-- A sprite changes the display and `VF` (R192). -/
theorem Unchanged.drawSprite (s : State) (x y : Reg) (bs : List Byte) :
    Unchanged { regs := [VF], fb := true } s (s.drawSprite x y bs) := by
  constructor <;> intros <;> first | rfl | contradiction | skip
  rename_i r hr
  exact State.readV_writeV_other _ VF r _ (by simpa using hr)

/-- A random byte changes its register and the draws (R160). -/
theorem Unchanged.drawByte_writeV (s : State) (x : Reg) (b : Byte) :
    Unchanged { regs := [x], draws := true } s (s.drawByte.2.writeV x b) := by
  obtain ⟨d, hd⟩ := s.drawByte_shape
  rw [hd]
  constructor <;> intros <;> first | rfl | contradiction | skip
  rename_i r hr
  exact State.readV_writeV_other { s with draws := d } x r b (by simpa using hr)

/-- A checked block store from `I` changes its bytes, or `EXEC` by its fault (R57, R58). -/
theorem Unchanged.storeBlock (s t : State) (bs : List Byte) (hb : 0 < bs.length)
    (h : completeOr s (s.storeBlock s.i.toNat bs) = .next t) :
    Unchanged { bytes := storeAddrs s bs.length, exec := true } s t := by
  rw [completeOr_storeBlock s bs hb] at h
  split at h
  · cases h; exact Unchanged.raiseFault_of_exec rfl s _
  split at h
  · cases h; exact (Unchanged.storeBytes s bs).allowExec
  · cases h; exact Unchanged.raiseFault_of_exec rfl s _

/-- `Fx1E` changes `I`, and `VF` when it sets the flag (R171). -/
theorem Unchanged.execAddI (x : Reg) (s t : State) (h : execAddI x s = .next t) :
    Unchanged (footprint (.addI x) s) s t := by
  unfold Machine.execAddI at h
  split at h <;> rename_i hf <;> cases h
  · have hv := Unchanged.writeV { s with i := addIResult s.i (s.readV x) } VF
      (flagByte (addIOver (addIResult s.i (s.readV x))))
    simp only [footprint, hf, if_pos]
    constructor <;> intros <;> first | rfl | contradiction | skip
    exact hv.regs _ ‹_›
  · simpa [footprint, hf] using Unchanged.setI s _

/-- Every meaning changes its footprint alone (R105, and the tables of R22, R25, R37, R57). -/
theorem exec_unchanged (i : Instr) (s t : State) (h : exec i s = .next t) : Unchanged (footprint i s) s t := by
  cases i
  case clear | setDelay | setSound | waitKey => cases h; constructor <;> intros <;> first | rfl | contradiction
  case ret =>
    rw [exec, execRet_eq] at h
    split at h <;> cases h
    · exact Unchanged.raiseFault_of_exec rfl s _
    · constructor <;> intros <;> first | rfl | contradiction
  case call nnn =>
    rw [exec, execCall_eq] at h
    split at h <;> cases h
    · constructor <;> intros <;> first | rfl | contradiction
    · exact Unchanged.raiseFault_of_exec rfl s _
  case draw x y n =>
    rw [exec, execDraw_eq] at h
    split at h <;> cases h
    · exact (Unchanged.drawSprite s x y _).allowExec
    · exact Unchanged.raiseFault_of_exec rfl s _
  case skipKeyDown | skipKeyUp =>
    simp only [exec, execSkipKeyDown_eq, execSkipKeyUp_eq] at h
    split at h <;> cases h
    · exact (Unchanged.skipIf s _).allowExec
    · exact Unchanged.raiseFault_of_exec rfl s _
  case loadRegs x =>
    rw [exec, execLoadRegs_eq] at h
    split at h <;> cases h
    · exact (Unchanged.writeRegs s x _ (by simp)).allowExec
    · exact Unchanged.raiseFault_of_exec rfl s _
  case bcd x => exact Unchanged.storeBlock s t (bcdDigits (s.readV x)) (by simp [bcdDigits]) h
  case storeRegs x =>
    have := Unchanged.storeBlock s t (s.firstRegs (x.toNat + 1)) (by simp) h
    rwa [State.firstRegs_length] at this
  case addI x => exact Unchanged.execAddI x s t h
  case rand x kk => cases h; exact Unchanged.drawByte_writeV s x _
  case jump | jumpOffset => cases h; exact Unchanged.setPc s _
  case skipEqImm | skipNeImm | skipEqReg | skipNeReg => cases h; exact Unchanged.skipIf s _
  case loadI | fontAddr => cases h; exact Unchanged.setI s _
  case add | sub | shr | subn | shl => cases h; exact Unchanged.writeFR s _ _ _
  case loadImm | addImm | move | or | and | xor | getDelay => cases h; exact Unchanged.writeV s _ _

/-! ### What a meaning can do to the parts under the invariant -/

/-- What a meaning can do to the parts of the state that `State.Inv` speaks of: it goes on at most one word further or
at a 12-bit target; it faults (R106); it stores a block that fits (R57); it calls (R122), returns (R120), or waits for a
key (R214). -/
inductive ControlEffect (i : Instr) (s : State) : State → Prop
  | goesOn (u : State) (cfg : u.cfg = s.cfg) (mem : u.mem = s.mem) (stack : u.stack = s.stack) (sp : u.sp = s.sp)
      (exec : u.execState = s.execState) (pc : u.pc = s.pc ∨ u.pc = s.pc + 2 ∨ u.pc.toNat < memSize) :
      ControlEffect i s u
  | faults (f : Fault) : ControlEffect i s (s.raiseFault f)
  | stores (bs : List Byte) (fits : s.i.toNat + bs.length ≤ memSize) :
      ControlEffect i s { s with mem := s.mem.writeBytes s.i.toNat bs }
  | calls (target : BitVec 12) (room : s.sp.val < 16) :
      ControlEffect i s { s with
        stack := s.stack.set s.sp.val s.pc
        sp := ⟨s.sp.val + 1, by omega⟩
        pc := target.setWidth 16 }
  | returns (nonempty : s.sp.val ≠ 0) :
      ControlEffect i s { s with
        pc := s.stack[s.sp.val - 1]'(by have := s.sp.isLt; omega)
        sp := ⟨s.sp.val - 1, by have := s.sp.isLt; omega⟩ }
  | waits (x : Reg) (wait : i = .waitKey x) :
      ControlEffect i s { s with pc := s.pc - 2, execState := .awaitingKey x }

/-- A meaning that writes registers, the display, the draws, `I` or a timer leaves the control parts alone. -/
theorem ControlEffect.keeps {i : Instr} {s u : State} (cfg : u.cfg = s.cfg) (mem : u.mem = s.mem)
    (stack : u.stack = s.stack) (sp : u.sp = s.sp) (exec : u.execState = s.execState) (pc : u.pc = s.pc) :
    ControlEffect i s u :=
  .goesOn u cfg mem stack sp exec (.inl pc)

theorem ControlEffect.writeFR (i : Instr) (s : State) (x : Reg) (r : Byte) (f : Bool) :
    ControlEffect i s (s.writeFR x r f) := by
  obtain ⟨v, hv⟩ := s.writeFR_shape x r f
  rw [hv]
  exact .keeps rfl rfl rfl rfl rfl rfl

theorem ControlEffect.skipIf (i : Instr) (s : State) (c : Bool) : ControlEffect i s (s.skipIf c) := by
  cases c
  · exact .keeps rfl rfl rfl rfl rfl rfl
  · exact .goesOn _ rfl rfl rfl rfl rfl (.inr (.inl rfl))

theorem ControlEffect.storeBlock (i : Instr) (s u : State) (bs : List Byte) (hb : 0 < bs.length)
    (h : completeOr s (s.storeBlock s.i.toNat bs) = .next u) : ControlEffect i s u := by
  rw [completeOr_storeBlock s bs hb] at h
  split at h
  · cases h; exact .faults _
  split at h <;> cases h
  · exact .stores bs ‹_›
  · exact .faults _

/-- Every meaning has one of these effects. -/
theorem exec_controlEffect (i : Instr) (s u : State) (h : exec i s = .next u) : ControlEffect i s u := by
  cases i
  case waitKey x => cases h; exact .waits x rfl
  case ret =>
    rw [exec, execRet_eq] at h
    split at h <;> cases h
    · exact .faults _
    · exact .returns ‹_›
  case call nnn =>
    rw [exec, execCall_eq] at h
    split at h <;> cases h
    · exact .calls nnn ‹_›
    · exact .faults _
  case draw x y n =>
    rw [exec, execDraw_eq] at h
    split at h <;> cases h
    · exact .keeps rfl rfl rfl rfl rfl rfl
    · exact .faults _
  case skipKeyDown | skipKeyUp =>
    simp only [exec, execSkipKeyDown_eq, execSkipKeyUp_eq] at h
    split at h <;> cases h
    · exact .skipIf _ s _
    · exact .faults _
  case loadRegs x =>
    rw [exec, execLoadRegs_eq] at h
    split at h <;> cases h
    · obtain ⟨v, hv⟩ := State.writeRegs_shape
        ((List.range (x.toNat + 1)).map (fun j => s.mem.read (s.i.toNat + j))) s 0
      rw [hv]
      exact .keeps rfl rfl rfl rfl rfl rfl
    · exact .faults _
  case bcd x => exact .storeBlock _ s u (bcdDigits (s.readV x)) (by simp [bcdDigits]) h
  case storeRegs x => exact .storeBlock _ s u (s.firstRegs (x.toNat + 1)) (by simp) h
  case addI x =>
    rw [exec, Machine.execAddI] at h
    split at h <;> cases h <;> exact .keeps rfl rfl rfl rfl rfl rfl
  case rand x kk =>
    cases h
    obtain ⟨d, hd⟩ := s.drawByte_shape
    rw [hd]
    exact .keeps rfl rfl rfl rfl rfl rfl
  case jump nnn =>
    cases h
    exact .goesOn _ rfl rfl rfl rfl rfl (.inr (.inr (by have := nnn.isLt; simp [memSize]; omega)))
  case jumpOffset nnn =>
    cases h
    exact .goesOn _ rfl rfl rfl rfl rfl (.inr (.inr (by simp [memSize]; omega)))
  case skipEqImm | skipNeImm | skipEqReg | skipNeReg => cases h; exact .skipIf _ s _
  case add | sub | shr | subn | shl => cases h; exact .writeFR _ s _ _ _
  all_goals cases h; exact .keeps rfl rfl rfl rfl rfl rfl

/-! ### The invariant over a step (R26, R108, R120) -/

/-- The fetch phase reads the configuration, memory and `PC` alone (R101). -/
theorem State.fetchPhase_congr {s t : State} (cfg : t.cfg = s.cfg) (mem : t.mem = s.mem) (pc : t.pc = s.pc) :
    t.fetchPhase = s.fetchPhase := by
  simp only [State.fetchPhase, State.fetchAt, cfg, mem, pc]

/-- A state that awaits no key inherits the invariant through its memory, its stack and a bound on its `PC`. -/
theorem State.Inv.of_not_waiting {s t : State} (h : s.Inv) (cfg : t.cfg = s.cfg) (mem : t.mem = s.mem)
    (stack : t.stack = s.stack) (sp : t.sp = s.sp) (pc : t.pc.toNat ≤ 0x1002)
    (awake : ∀ x, t.execState ≠ .awaitingKey x) : t.Inv where
  mem := mem ▸ h.mem
  pc := pc
  stack := by rw [cfg, stack, sp]; exact h.stack
  waiting := fun x hx => absurd hx (awake x)

/-- The end of a step keeps the invariant: it writes `PREV_KEYS` alone (R109). -/
theorem State.Inv.endStep {s : State} (h : s.Inv) : s.endStep.Inv where
  mem := by simpa using h.mem
  pc := by simpa using h.pc
  stack := by simpa using h.stack
  waiting := fun x hx => by
    rw [State.fetchPhase_congr s.endStep_cfg s.endStep_mem s.endStep_pc]
    exact h.waiting x (by simpa using hx)

/-- A fetch that passes leaves room for the pre-advance (R26, R103). -/
theorem State.advance_pc_toNat {s : State} {w : Word} (h : s.fetchPhase = .ok w) :
    s.advance.pc.toNat = s.pc.toNat + 2 ∧ s.pc.toNat + 2 ≤ 0x1000 := by
  obtain ⟨hlt, -, -⟩ := (s.fetchPhase_ok_iff w).1 h
  rw [State.advance_pc]
  simp only [memSize] at hlt
  constructor <;> bv_omega

/-- The pre-advanced `PC` is what a call may push (R120, R122). -/
theorem State.isReturnAddress_advance {s : State} {w : Word} (h : s.fetchPhase = .ok w) :
    isReturnAddress s.cfg s.advance.pc := by
  obtain ⟨-, hstrict, -⟩ := (s.fetchPhase_ok_iff w).1 h
  obtain ⟨hpc, hle⟩ := State.advance_pc_toNat h
  unfold isReturnAddress
  rw [hpc]
  refine ⟨by omega, hle, fun hs => ?_⟩
  obtain ⟨heven, hbase⟩ := hstrict hs
  simp only [programBase] at hbase
  omega

/-- The pre-advance after a fetch that passes keeps the invariant. -/
theorem State.Inv.advance {s : State} {w : Word} (h : s.Inv) (hr : s.execState = .running)
    (hw : s.fetchPhase = .ok w) : s.advance.Inv := by
  obtain ⟨hpc, hle⟩ := State.advance_pc_toNat hw
  exact h.of_not_waiting rfl rfl rfl rfl (by omega) (by simp [hr])

/-- A push of a return address keeps every stacked entry one (R27, R122). -/
theorem isReturnAddress_push {s : State} (hs : s.Inv) (hp : isReturnAddress s.cfg s.pc) (k : Fin 16)
    (room : s.sp.val < 16) (hk : k.val < s.sp.val + 1) : isReturnAddress s.cfg (s.stack.set s.sp.val s.pc)[k] := by
  by_cases he : k.val = s.sp.val
  · simpa [he] using hp
  · have := hs.stack k (by omega)
    simpa [Vector.getElem_set, Ne.symm he] using this

/-- Every effect of a meaning keeps the invariant, from a running state whose `PC` is a return address and, for a wait,
two past the `Fx0A` it was fetched from. -/
theorem ControlEffect.keeps_inv {i : Instr} {s u : State} (he : ControlEffect i s u) (hs : s.Inv)
    (hr : s.execState = .running) (hp : isReturnAddress s.cfg s.pc)
    (hw : ({ s with pc := s.pc - 2 } : State).fetchPhase = .ok (encode i)) : u.Inv := by
  have ⟨hge, hle, _⟩ := hp
  cases he with
  | goesOn _ cfg mem stack sp exec pc =>
    refine hs.of_not_waiting cfg mem stack sp ?_ (by simp [exec, hr])
    rcases pc with h | h | h
    · rw [h]; exact hs.pc
    · rw [h]; bv_omega
    · simp only [memSize] at h; omega
  | faults f => exact hs.of_not_waiting rfl rfl rfl rfl hs.pc (by simp)
  | stores bs fits =>
    exact ⟨Memory.wf_writeBytes bs s.mem _ hs.mem fits, hs.pc, hs.stack, fun x hx => by simp [hr] at hx⟩
  | calls target room =>
    refine ⟨hs.mem, ?_, fun k hk => isReturnAddress_push hs hp k room hk, fun x hx => by simp [hr] at hx⟩
    have := target.isLt
    simp
    omega
  | returns nonempty =>
    have hlt := s.sp.isLt
    obtain ⟨-, htop, -⟩ := hs.stack ⟨s.sp.val - 1, by omega⟩ (by simp; omega)
    refine ⟨hs.mem, Nat.le_trans htop (by decide), fun k hk => hs.stack k ?_, fun x hx => by simp [hr] at hx⟩
    simp at hk
    omega
  | waits x wait =>
    subst wait
    refine ⟨hs.mem, ?_, hs.stack, fun y hy => ?_⟩
    · simp only
      bv_omega
    · cases hy
      exact hw

/-- A poll keeps the invariant: a captured key advances past the `Fx0A` that waited (R108). -/
theorem State.Inv.poll {s : State} {x : Reg} (h : s.Inv) (hx : s.execState = .awaitingKey x) : (s.poll x).Inv := by
  by_cases he : s.keyEdges = []
  · rwa [State.poll_no_edge s x he]
  · obtain ⟨k, -, d, hp⟩ := State.poll_edge s x he
    obtain ⟨hpc, hle⟩ := State.advance_pc_toNat (h.waiting x hx)
    rw [State.advance_pc] at hpc
    rw [hp]
    exact h.of_not_waiting rfl rfl rfl rfl (by simp only; omega) (by simp)

/-- An executed instruction keeps the invariant. -/
theorem State.Inv.exec {s u : State} {w : Word} {i : Instr} (h : s.Inv) (hr : s.execState = .running)
    (hw : s.fetchPhase = .ok w) (hd : decode w = .known i) (hu : exec i s.advance = .next u) : u.Inv := by
  refine (exec_controlEffect i s.advance u hu).keeps_inv (h.advance hr hw) hr (State.isReturnAddress_advance hw) ?_
  rw [Laws.encode_of_decode w i hd, ← hw]
  exact State.fetchPhase_congr rfl rfl (by simp)

/-- Settles O50: each outcome of a step keeps the invariant, the executed instruction by its control effect. -/
theorem stepKeepsInvariant : Obligations.StepKeepsInvariant := by
  unfold Obligations.StepKeepsInvariant
  intro s t h hst
  rcases step_cases s t hst with ⟨f, -, rfl⟩ | ⟨x, hx, rfl⟩ | ⟨hr, f, -, rfl⟩ | ⟨hr, w, w', hw, -, rfl⟩ |
    ⟨hr, w, i, u, hw, hd, hu, rfl⟩
  · exact h
  · exact (h.poll hx).endStep
  · exact h.of_not_waiting rfl rfl rfl rfl h.pc (by simp)
  · exact (h.advance hr hw).of_not_waiting rfl rfl rfl rfl (h.advance hr hw).pc (by simp)
  · exact (h.exec hr hw hd hu).endStep

/-! ### What a step changes -/

/-- Outside the execute phase a step leaves everything alone that only instructions change. -/
structure Quiet (s t : State) : Prop where
  cfg   : t.cfg = s.cfg
  bytes : ∀ a, t.mem.read a = s.mem.read a
  i     : t.i = s.i
  stack : t.stack = s.stack
  sp    : t.sp = s.sp
  dt    : t.dt = s.dt
  st    : t.st = s.st
  fb    : t.fb = s.fb

/-- A poll and the end of its step are quiet (R108, R109). -/
theorem Quiet.poll_endStep (s : State) (x : Reg) : Quiet s (s.poll x).endStep := by
  have h := s.poll_unchanged x
  constructor
  case bytes => intro a; simpa using h.bytes a (by simp)
  all_goals simp [h.cfg, h.i rfl, h.stack rfl, h.sp rfl, h.dt rfl, h.st rfl, h.fb rfl]

/-- A step executes an instruction (R100), or is quiet. -/
theorem step_executes_or_quiet (s t : State) (h : step s = .next t) :
    (∃ i u, s.executes i ∧ exec i s.advance = .next u ∧ t = u.endStep) ∨ Quiet s t := by
  rcases step_cases s t h with ⟨f, -, rfl⟩ | ⟨x, -, rfl⟩ | ⟨-, f, -, rfl⟩ | ⟨-, w, w', -, -, rfl⟩ |
    ⟨hr, w, i, u, hw, hd, hu, rfl⟩
  · right; constructor <;> intros <;> rfl
  · exact .inr (.poll_endStep s x)
  · right; constructor <;> intros <;> rfl
  · right; constructor <;> intros <;> rfl
  · exact .inl ⟨i, u, ⟨hr, w, hw, hd⟩, hu, rfl⟩

theorem step_cfg (s t : State) (h : step s = .next t) : t.cfg = s.cfg := by
  rcases step_executes_or_quiet s t h with ⟨i, u, -, hu, rfl⟩ | hq
  · simpa using (exec_unchanged i s.advance u hu).cfg
  · exact hq.cfg

theorem State.tick_cfg (s : State) : s.tick.cfg = s.cfg := by
  unfold State.tick
  split <;> rfl

/-- The `step` transaction answers the state of `step` (R113). -/
theorem step_of_stepReply (s t : State) (r : Reply) (h : stepReply (step s) = .next (r, t)) : step s = .next t := by
  cases hs : step s <;> rw [hs] at h <;> cases h
  rfl

/-- The load transaction answers a state only through `State.load` (R260). -/
theorem load_of_transact (initFill : Nat → Byte) (image : List Byte) (s t : State) (r : Reply)
    (h : transact (.load initFill image) s = .next (r, t)) : State.load s.cfg s.draws initFill image = .ok t := by
  unfold transact at h
  cases hl : State.load s.cfg s.draws initFill image <;> simp only [hl] at h <;> cases h
  rfl

/-- Settles O47: the launch takes the configuration it is given, and no other transaction writes it. -/
theorem configurationNeverChanges : Obligations.ConfigurationNeverChanges := by
  unfold Obligations.ConfigurationNeverChanges
  intro tr s t r h
  cases tr with
  | load initFill image =>
    obtain ⟨-, rfl⟩ := (State.load_eq_ok_iff ..).1 (load_of_transact initFill image s t r h)
    rfl
  | step => exact step_cfg s t (step_of_stepReply s t r h)
  | tick => cases h; exact s.tick_cfg
  | setKeys | readFb | readSound | readExec => cases h; rfl

/-! ### Which footprints hold a component (R24, R28, R29, R30, R57) -/

theorem footprint_i {i : Instr} {s : State} (h : (footprint i s).i = true) :
    (∃ nnn, i = .loadI nnn) ∨ (∃ x, i = .addI x) ∨ ∃ x, i = .fontAddr x := by
  cases i <;> simp_all [footprint]

theorem footprint_stack {i : Instr} {s : State} (h : (footprint i s).stack = true) :
    i = .ret ∨ ∃ nnn, i = .call nnn := by
  cases i <;> simp_all [footprint]

theorem footprint_dt {i : Instr} {s : State} (h : (footprint i s).dt = true) : ∃ x, i = .setDelay x := by
  cases i <;> simp_all [footprint]

theorem footprint_st {i : Instr} {s : State} (h : (footprint i s).st = true) : ∃ x, i = .setSound x := by
  cases i <;> simp_all [footprint]

theorem footprint_fb {i : Instr} {s : State} (h : (footprint i s).fb = true) :
    i = .clear ∨ ∃ x y n, i = .draw x y n := by
  cases i <;> simp_all [footprint]

theorem footprint_bytes {i : Instr} {s : State} {a : Nat} (h : a ∈ (footprint i s).bytes) :
    ∃ x, i = .bcd x ∨ i = .storeRegs x := by
  cases i <;> simp_all [footprint]

/-- Settles O49: a step that changes a component executes an instruction with that component in its footprint. -/
theorem onlyNamedInstructionsChange : Obligations.OnlyNamedInstructionsChange := by
  unfold Obligations.OnlyNamedInstructionsChange
  intro s t h
  rcases step_executes_or_quiet s t h with ⟨i, u, he, hu, rfl⟩ | hq
  · have hf := exec_unchanged i s.advance u hu
    simp only [State.endStep_i, State.endStep_stack, State.endStep_sp, State.endStep_dt, State.endStep_st,
      State.endStep_fb, State.endStep_mem]
    refine ⟨fun hc => ?_, fun hc => ?_, fun hc => ?_, fun hc => ?_, fun hc => ?_, fun a hc => ?_⟩
    · rcases footprint_i (Bool.of_not_eq_false (mt hf.i hc)) with ⟨nnn, rfl⟩ | ⟨x, rfl⟩ | ⟨x, rfl⟩
      · exact .inl ⟨nnn, he⟩
      · exact .inr (.inl ⟨x, he⟩)
      · exact .inr (.inr ⟨x, he⟩)
    · have hs : (footprint i s.advance).stack = true :=
        Bool.of_not_eq_false fun e => hc.elim (· (hf.stack e)) (· (hf.sp e))
      rcases footprint_stack hs with rfl | ⟨nnn, rfl⟩
      · exact .inl he
      · exact .inr ⟨nnn, he⟩
    · obtain ⟨x, rfl⟩ := footprint_dt (Bool.of_not_eq_false (mt hf.dt hc))
      exact ⟨x, he⟩
    · obtain ⟨x, rfl⟩ := footprint_st (Bool.of_not_eq_false (mt hf.st hc))
      exact ⟨x, he⟩
    · rcases footprint_fb (Bool.of_not_eq_false (mt hf.fb hc)) with rfl | ⟨x, y, n, rfl⟩
      · exact .inl he
      · exact .inr ⟨x, y, n, he⟩
    · obtain ⟨x, rfl | rfl⟩ := footprint_bytes (Decidable.of_not_not (mt (hf.bytes a) hc))
      · exact ⟨x, .inl he⟩
      · exact ⟨x, .inr he⟩
  · exact ⟨fun hc => absurd hq.i hc, fun hc => (hc.elim (· hq.stack) (· hq.sp)).elim, fun hc => absurd hq.dt hc,
      fun hc => absurd hq.st hc, fun hc => absurd hq.fb hc, fun a hc => absurd (hq.bytes a) hc⟩

/-! ### Canonical memories -/

/-- Settles O37: a canonical memory lists exactly the bytes that differ from the background, in rising order. -/
theorem canonicalMemoriesReadApart : Obligations.CanonicalMemoriesReadApart := by
  unfold Obligations.CanonicalMemoriesReadApart
  intro m m' hm hm' hread
  have hcells : ∀ cell : Host.Cell, cell ∈ m ↔ cell ∈ m' := fun ⟨a, b⟩ => by
    rw [Memory.mem_iff_read m hm, Memory.mem_iff_read m' hm', hread]
  have : Std.Irrefl (fun p q : Host.Cell => p.1 < q.1) := ⟨fun p => Nat.lt_irrefl p.1⟩
  have : Std.Antisymm (fun p q : Host.Cell => p.1 < q.1) := ⟨fun p q h h' => absurd h' (Nat.lt_asymm h)⟩
  exact hm.1.eq_of_mem_iff hm'.1 hcells

/-! ### The launch (R38, R260, R261) -/

theorem launchByte_font (cfg : Config) (initFill : Nat → Byte) (image : List Byte) (a : Nat) (h : a < 80) :
    launchByte cfg initFill image a = cfg.font[a] := by
  rw [launchByte, dif_pos h]

theorem launchByte_image (cfg : Config) (initFill : Nat → Byte) (image : List Byte) (j : Nat) (h : j < image.length) :
    launchByte cfg initFill image (0x200 + j) = image[j] := by
  simp [launchByte, programBase, h, show ¬ 0x200 + j < 80 by omega]

theorem launchByte_fill (cfg : Config) (initFill : Nat → Byte) (image : List Byte) (a : Nat) (hfont : 80 ≤ a)
    (himage : a < 0x200 ∨ 0x200 + image.length ≤ a) : launchByte cfg initFill image a = initFill a := by
  rw [launchByte, dif_neg (by omega), if_neg (by simp only [programBase]; omega)]

theorem State.load_too_large (cfg : Config) (draws : Draws) (initFill : Nat → Byte) (image : List Byte)
    (h : image.length > maxImage) : State.load cfg draws initFill image = .error .programTooLarge := by
  rw [State.load, if_pos h]

theorem State.load_of_fits (cfg : Config) (draws : Draws) (initFill : Nat → Byte) (image : List Byte)
    (h : image.length ≤ maxImage) :
    State.load cfg draws initFill image = .ok { State.reset with
      cfg := cfg, mem := Memory.ofBytes (launchByte cfg initFill image), draws := draws } :=
  (State.load_eq_ok_iff ..).2 ⟨h, rfl⟩

@[simp] theorem State.reset_readV (r : Reg) : State.reset.readV r = 0 := by
  simp [State.readV, State.reset]

@[simp] theorem State.reset_stack (k : Fin 16) : State.reset.stack[k] = 0 := by
  simp [State.reset]

theorem transact_load_of_ok (initFill : Nat → Byte) (image : List Byte) (s t : State)
    (h : State.load s.cfg s.draws initFill image = .ok t) :
    transact (.load initFill image) s = .next (.done, t) := by
  simp only [transact, h]

theorem transact_load_of_error (initFill : Nat → Byte) (image : List Byte) (s : State) (f : Fault)
    (h : State.load s.cfg s.draws initFill image = .error f) : transact (.load initFill image) s = .fault f := by
  simp only [transact, h]

/-- Settles O1: the length of the image decides, the launched memory reads as `launchByte`, and all else is as reset. -/
theorem loadBuildsTheLaunchState : Obligations.LoadBuildsTheLaunchState := by
  unfold Obligations.LoadBuildsTheLaunchState
  intro cfg draws initFill image
  refine ⟨State.load_too_large cfg draws initFill image, fun hfits => ?_, fun s => ⟨fun hlarge => ?_, fun hfits => ?_⟩⟩
  · have hread := Memory.read_ofBytes (launchByte cfg initFill image)
    refine ⟨_, State.load_of_fits cfg draws initFill image hfits, rfl, fun a ha => ?_, fun j hj => ?_,
      fun a hfont hlt himage => ?_, State.reset_readV, rfl, rfl, rfl, State.reset_stack, rfl, rfl,
      Display.pixel_blank, rfl, rfl, rfl⟩
    · rw [hread a (by simp only [memSize]; omega), launchByte_font _ _ _ _ ha]
    · rw [hread _ (by simp only [memSize]; omega), launchByte_image _ _ _ _ hj]
    · rw [hread a hlt, launchByte_fill _ _ _ _ hfont himage]
  · exact transact_load_of_error initFill image s _ (State.load_too_large _ _ _ _ hlarge)
  · have hload := State.load_of_fits s.cfg s.draws initFill image hfits
    exact ⟨_, hload, transact_load_of_ok initFill image s _ hload⟩

end Sys2Proof.Machine

/-! ## The memory (20_memory.md): what a fetch after a store reads, and the low region -/

namespace Sys2Proof.Laws

/-! ### The two bytes of a fetched word (20_memory.md R54) -/

@[simp] theorem hiByte_wordOfBytes (hi lo : Byte) : Word.hiByte (wordOfBytes hi lo) = hi := by
  apply BitVec.eq_of_toNat_eq
  have := hi.isLt
  have := lo.isLt
  rw [Word.hiByte, extract_toNat, wordOfBytes, append_toNat]
  omega

@[simp] theorem loByte_wordOfBytes (hi lo : Byte) : Word.loByte (wordOfBytes hi lo) = lo := by
  apply BitVec.eq_of_toNat_eq
  have := lo.isLt
  rw [Word.loByte, extract_toNat, wordOfBytes, append_toNat]
  omega

end Sys2Proof.Laws

namespace Sys2Proof.Machine

open Sys2Proof.Laws

/-! ### The bytes a store stores -/

theorem Memory.read_writeBytes_stored (m : Memory) (a k : Nat) (bs : List Byte) (hk : k < bs.length) :
    (m.writeBytes a bs).read (a + k) = bs[k] := by
  rw [Memory.read_writeBytes, if_pos (by omega), Nat.add_sub_cancel_left, List.getD_eq_getElem _ _ hk]

theorem Memory.read_writeBytes_below (m : Memory) (a c : Nat) (bs : List Byte) (hc : c < a) :
    (m.writeBytes a bs).read c = m.read c := by
  rw [Memory.read_writeBytes, if_neg (by omega)]

theorem State.getElem_firstRegs (s : State) (n : Nat) (r : Reg) (h : r.toNat < (s.firstRegs n).length) :
    (s.firstRegs n)[r.toNat] = s.readV r := by
  simp [State.firstRegs, State.readV]

@[simp] theorem bcdDigits_length (b : Byte) : (bcdDigits b).length = 3 := rfl

/-- The stored digits are the decimal digits: each is below 10, so its byte holds it (R173). -/
theorem getElem_bcdDigits (b : Byte) (k : Nat) (h : k < (bcdDigits b).length) :
    (bcdDigits b)[k].toNat = decimalDigit b k := by
  have hb := b.isLt
  match k, h with
  | 0, _ => exact Nat.mod_eq_of_lt (by omega)
  | 1, _ => exact Nat.mod_eq_of_lt (by omega)
  | 2, _ => exact Nat.mod_eq_of_lt (by omega)

/-! ### A fetch after a store (20_memory.md R65) -/

/-- A block store from `I` that fits completes, and the fetch phase at any `PC` that passes its checks reads every
stored byte: at `PC` as the high byte, at `PC + 1` as the low byte (R65, D26). -/
theorem fetchPhase_after_storeBlock (s : State) (p : Word) (bs : List Byte) (hb : 0 < bs.length)
    (hp : p.toNat + 1 < memSize) (hstrict : s.cfg.pcCheck = .strict → p.toNat % 2 = 0 ∧ programBase ≤ p.toNat)
    (hlow : s.cfg.lowWrite = .fault → programBase ≤ s.i.toNat) (hfits : s.i.toNat + bs.length ≤ memSize) :
    ∃ t w, completeOr s (s.storeBlock s.i.toNat bs) = .next t ∧ ({ t with pc := p } : State).fetchPhase = .ok w ∧
      (∀ k (hk : k < bs.length), p.toNat = s.i.toNat + k → Word.hiByte w = bs[k]) ∧
      (∀ k (hk : k < bs.length), p.toNat + 1 = s.i.toNat + k → Word.loByte w = bs[k]) := by
  have hnotlow : ¬ (s.cfg.lowWrite = .fault ∧ s.i.toNat < programBase) :=
    fun ⟨hf, hlt⟩ => Nat.not_lt.2 (hlow hf) hlt
  refine ⟨{ s with mem := s.mem.writeBytes s.i.toNat bs }, _, ?_, (State.fetchPhase_ok_iff _ _).2 ⟨hp, hstrict, rfl⟩,
    fun k hk he => ?_, fun k hk he => ?_⟩
  · rw [completeOr_storeBlock s bs hb, if_neg hnotlow, if_pos hfits]
  · rw [hiByte_wordOfBytes, he, Memory.read_writeBytes_stored _ _ _ _ hk]
  · rw [loByte_wordOfBytes, he, Memory.read_writeBytes_stored _ _ _ _ hk]

/-- Settles O35: both instructions are block stores from `I`, of the registers and of the digits. -/
theorem storedBytesAreFetched : Obligations.StoredBytesAreFetched := by
  unfold Obligations.StoredBytesAreFetched
  intro x s p hp hstrict hlow
  refine ⟨fun hfits => ?_, fun hfits => ?_⟩
  · have hlen := s.firstRegs_length x
    obtain ⟨t, w, ht, hw, hhi, hlo⟩ := fetchPhase_after_storeBlock s p (s.firstRegs (x.toNat + 1))
      (by omega) hp hstrict hlow (by simp only [memSize]; omega)
    refine ⟨t, w, ht, hw, fun r hr he => ?_, fun r hr he => ?_⟩
    · rw [hhi r.toNat (by omega) he, State.getElem_firstRegs]
    · rw [hlo r.toNat (by omega) he, State.getElem_firstRegs]
  · obtain ⟨t, w, ht, hw, hhi, hlo⟩ := fetchPhase_after_storeBlock s p (bcdDigits (s.readV x))
      (by simp) hp hstrict hlow (by simp only [memSize, bcdDigits_length]; omega)
    refine ⟨t, w, ht, hw, fun k hk he => ?_, fun k hk he => ?_⟩
    · rw [hhi k hk he]; exact getElem_bcdDigits _ k hk
    · rw [hlo k hk he]; exact getElem_bcdDigits _ k hk

/-! ### The low region (20_memory.md R53, R60) -/

/-- A block store from `I` leaves the low region alone: from a low `I` it faults, from any other it stores above. -/
theorem read_low_after_storeBlock (s t : State) (bs : List Byte) (hb : 0 < bs.length) (hl : s.cfg.lowWrite = .fault)
    (h : completeOr s (s.storeBlock s.i.toNat bs) = .next t) (a : Nat) (ha : a < programBase) :
    t.mem.read a = s.mem.read a := by
  rw [completeOr_storeBlock s bs hb] at h
  split at h
  · cases h; rfl
  next hnotlow =>
    have hi : programBase ≤ s.i.toNat := Nat.not_lt.1 fun hlt => hnotlow ⟨hl, hlt⟩
    split at h <;> cases h
    · exact Memory.read_writeBytes_below _ _ _ _ (Nat.lt_of_lt_of_le ha hi)
    · rfl

/-- Every meaning leaves the low region alone: only `Fx33` and `Fx55` have bytes in their footprint (R57). -/
theorem read_low_after_exec (i : Instr) (s t : State) (hl : s.cfg.lowWrite = .fault) (h : exec i s = .next t) (a : Nat)
    (ha : a < programBase) : t.mem.read a = s.mem.read a := by
  by_cases hf : a ∈ (footprint i s).bytes
  · obtain ⟨x, rfl | rfl⟩ := footprint_bytes hf
    · exact read_low_after_storeBlock s t (bcdDigits (s.readV x)) (by simp) hl h a ha
    · exact read_low_after_storeBlock s t (s.firstRegs (x.toNat + 1)) (by simp) hl h a ha
  · exact (exec_unchanged i s t h).bytes a hf

/-- Settles O36: a step executes an instruction, which leaves the low region alone, or changes no memory at all. -/
theorem lowMemoryNeverMutated : Obligations.LowMemoryNeverMutated := by
  unfold Obligations.LowMemoryNeverMutated
  intro s t a hl h ha
  rcases step_executes_or_quiet s t h with ⟨i, u, -, hu, rfl⟩ | hq
  · simpa using read_low_after_exec i s.advance u hl hu a ha
  · exact hq.bytes a

end Sys2Proof.Machine

/-! ## The encoding (30_encoding.md): the fields, the round trip, one meaning for every word -/

namespace Sys2Proof.Laws

/-! ### Decode of encode (R75, R76, R78) -/

/-- Settles O6: the format's fields read the operands back; the class, with the function nibble or byte in the classes
5, 8, 9, E and F, selects the instruction. -/
theorem decodeOfEncode : Obligations.DecodeOfEncode := by
  unfold Obligations.DecodeOfEncode
  intro i
  cases i with
  | clear | ret => rfl
  | jump nnn | call nnn | loadI nnn | jumpOffset nnn
  | skipEqImm x kk | skipNeImm x kk | loadImm x kk | addImm x kk | rand x kk
  | skipEqReg x y | skipNeReg x y | draw x y n => simp [encode, decode]
  | move x y | or x y | and x y | xor x y | add x y | sub x y | shr x y | subn x y | shl x y =>
    simp [encode, decode, decodeClass8]
  | skipKeyDown x | skipKeyUp x => simp [encode, decode, decodeClassE]
  | getDelay x | waitKey x | setDelay x | setSound x | addI x | fontAddr x | bcd x | storeRegs x | loadRegs x =>
    simp [encode, decode, decodeClassF]

/-! ### The rows of the opcode table (R76) -/

theorem exists_row_of_mem_opcodeTable : ∀ r ∈ opcodeTable, ∃ i : Instr, i.row = r := by
  simp [opcodeTable]

theorem row_mem_opcodeTable (i : Instr) : i.row ∈ opcodeTable := by
  cases i <;> simp [opcodeTable, Instr.row]

theorem isInstructionWord_iff (w : Word) : isInstructionWord w = true ↔ ∃ i : Instr, i.row.covers w = true := by
  simp only [isInstructionWord, List.any_eq_true]
  constructor
  · rintro ⟨r, hr, hw⟩
    obtain ⟨i, rfl⟩ := exists_row_of_mem_opcodeTable r hr
    exact ⟨i, hw⟩
  · rintro ⟨i, hw⟩
    exact ⟨i.row, row_mem_opcodeTable i, hw⟩

/-- Two words of one row agree on every field of which the row's mask fixes all bits. -/
theorem extract_eq_of_covers (r : Row) (w w' : Word) (hw : r.covers w = true) (hw' : r.covers w' = true) (lo len : Nat)
    (hm : r.mask.extractLsb' lo len = BitVec.allOnes len) : w.extractLsb' lo len = w'.extractLsb' lo len := by
  have hand : w &&& r.mask = w' &&& r.mask := (eq_of_beq hw).trans (eq_of_beq hw').symm
  simpa [BitVec.extractLsb'_and, hm] using congrArg (·.extractLsb' lo len) hand

theorem row_covers_encode : ∀ i : Instr, i.row.covers (encode i) = true
  | .clear => EncodesInItsRow.clear
  | .ret => EncodesInItsRow.ret
  | .jump nnn => EncodesInItsRow.jump nnn
  | .call nnn => EncodesInItsRow.call nnn
  | .skipEqImm x kk => EncodesInItsRow.skipEqImm x kk
  | .skipNeImm x kk => EncodesInItsRow.skipNeImm x kk
  | .skipEqReg x y => EncodesInItsRow.skipEqReg x y
  | .loadImm x kk => EncodesInItsRow.loadImm x kk
  | .addImm x kk => EncodesInItsRow.addImm x kk
  | .move x y => EncodesInItsRow.move x y
  | .or x y => EncodesInItsRow.or x y
  | .and x y => EncodesInItsRow.and x y
  | .xor x y => EncodesInItsRow.xor x y
  | .add x y => EncodesInItsRow.add x y
  | .sub x y => EncodesInItsRow.sub x y
  | .shr x y => EncodesInItsRow.shr x y
  | .subn x y => EncodesInItsRow.subn x y
  | .shl x y => EncodesInItsRow.shl x y
  | .skipNeReg x y => EncodesInItsRow.skipNeReg x y
  | .loadI nnn => EncodesInItsRow.loadI nnn
  | .jumpOffset nnn => EncodesInItsRow.jumpOffset nnn
  | .rand x kk => EncodesInItsRow.rand x kk
  | .draw x y n => EncodesInItsRow.draw x y n
  | .skipKeyDown x => EncodesInItsRow.skipKeyDown x
  | .skipKeyUp x => EncodesInItsRow.skipKeyUp x
  | .getDelay x => EncodesInItsRow.getDelay x
  | .waitKey x => EncodesInItsRow.waitKey x
  | .setDelay x => EncodesInItsRow.setDelay x
  | .setSound x => EncodesInItsRow.setSound x
  | .addI x => EncodesInItsRow.addI x
  | .fontAddr x => EncodesInItsRow.fontAddr x
  | .bcd x => EncodesInItsRow.bcd x
  | .storeRegs x => EncodesInItsRow.storeRegs x
  | .loadRegs x => EncodesInItsRow.loadRegs x

/-- A word in the row of `i` has the class of `i`, since every row's mask fixes the class. -/
theorem opClass_of_row_covers (i : Instr) (w : Word) (h : i.row.covers w = true) :
    Word.opClass w = Word.opClass (encode i) :=
  extract_eq_of_covers i.row w _ h (row_covers_encode i) 12 4 (by cases i <;> simp [Instr.row])

/-- A word in a row with a function nibble has the nibble of that row. -/
theorem fieldN_of_row_covers (i : Instr) (w : Word) (h : i.row.covers w = true)
    (hm : i.row.mask = 0xF00F#16) : Word.fieldN w = Word.fieldN (encode i) :=
  extract_eq_of_covers i.row w _ h (row_covers_encode i) 0 4 (by rw [hm]; rfl)

/-- A word in a row with a function byte has the byte of that row. -/
theorem fieldKK_of_row_covers (i : Instr) (w : Word) (h : i.row.covers w = true)
    (hm : i.row.mask = 0xF0FF#16) : Word.fieldKK w = Word.fieldKK (encode i) :=
  extract_eq_of_covers i.row w _ h (row_covers_encode i) 0 8 (by rw [hm]; rfl)

/-- A word in a row whose mask fixes every bit is the instruction's word. -/
theorem eq_encode_of_row_covers (i : Instr) (w : Word) (h : i.row.covers w = true)
    (hm : i.row.mask = BitVec.allOnes 16) : w = encode i := by
  simpa using extract_eq_of_covers i.row w _ h (row_covers_encode i) 0 16 (by simpa using hm)

/-- A word in the row of `i` decodes to an instruction of that row: the fields the mask fixes are those `decode`
selects on. -/
theorem decode_of_row_covers (i : Instr) (w : Word) (h : i.row.covers w = true) :
    ∃ j : Instr, decode w = .known j ∧ j.row = i.row := by
  have hc := opClass_of_row_covers i w h
  cases i with
  | clear | ret => exact ⟨_, by rw [eq_encode_of_row_covers _ w h rfl, decodeOfEncode], rfl⟩
  | jump nnn | call nnn | loadI nnn | jumpOffset nnn
  | skipEqImm x kk | skipNeImm x kk | loadImm x kk | addImm x kk | rand x kk
  | draw x y n => simp [decode, hc, encode, Instr.row]
  | skipEqReg x y | skipNeReg x y =>
    have hn := fieldN_of_row_covers _ w h rfl
    simp [decode, hc, hn, encode, Instr.row]
  | move x y | or x y | and x y | xor x y | add x y | sub x y | shr x y | subn x y | shl x y =>
    have hn := fieldN_of_row_covers _ w h rfl
    simp [decode, decodeClass8, hc, hn, encode, Instr.row]
  | skipKeyDown x | skipKeyUp x =>
    have hk := fieldKK_of_row_covers _ w h rfl
    simp [decode, decodeClassE, hc, hk, encode, Instr.row]
  | getDelay x | waitKey x | setDelay x | setSound x | addI x | fontAddr x | bcd x | storeRegs x | loadRegs x =>
    have hk := fieldKK_of_row_covers _ w h rfl
    simp [decode, decodeClassF, hc, hk, encode, Instr.row]

/-! ### One meaning for every word (R74 to R77) -/

/-- The decoder answers an instruction or `UNKNOWN` of the word itself (R74). -/
theorem decode_known_or_unknown (w : Word) : (∃ i, decode w = .known i) ∨ decode w = .unknown w := by
  unfold decode decodeClass0 decodeClass8 decodeClassE decodeClassF
  (repeat' split) <;> simp

/-- The decoder answers an instruction exactly for the words of the table (R77). -/
theorem decode_known_iff (w : Word) : (∃ i, decode w = .known i) ↔ isInstructionWord w = true := by
  rw [isInstructionWord_iff]
  constructor
  · rintro ⟨i, h⟩
    exact ⟨i, encode_of_decode w i h ▸ row_covers_encode i⟩
  · rintro ⟨i, h⟩
    obtain ⟨j, hj, -⟩ := decode_of_row_covers i w h
    exact ⟨j, hj⟩

/-- Settles O7: the table decides between the two answers of the decoder, and what it decodes to encodes to the word. -/
theorem everyWordHasOneMeaning : Obligations.EveryWordHasOneMeaning := by
  unfold Obligations.EveryWordHasOneMeaning
  intro w
  refine ⟨fun hno => ?_, fun hyes => ?_⟩
  · exact (decode_known_or_unknown w).resolve_left (mt (decode_known_iff w).1 (by simp [hno]))
  · obtain ⟨i, hi⟩ := (decode_known_iff w).2 hyes
    exact ⟨i, hi, encode_of_decode w i hi⟩

/-- Settles O8: both rows are the row of the one instruction the word decodes to (R75). -/
theorem rowsAreDisjoint : Obligations.RowsAreDisjoint := by
  unfold Obligations.RowsAreDisjoint
  intro w r r' hr hr' hw hw'
  obtain ⟨i, rfl⟩ := exists_row_of_mem_opcodeTable r hr
  obtain ⟨i', rfl⟩ := exists_row_of_mem_opcodeTable r' hr'
  obtain ⟨j, hj, hrow⟩ := decode_of_row_covers i w hw
  obtain ⟨j', hj', hrow'⟩ := decode_of_row_covers i' w hw'
  obtain rfl : j = j' := Op.known.inj (hj.symm.trans hj')
  exact hrow.symm.trans hrow'

/-! ### The fields of a word (R71) -/

/-- Settles O5: each field is the extract of its bits. -/
theorem fieldsOfAWord : Obligations.FieldsOfAWord := by
  unfold Obligations.FieldsOfAWord
  intro w
  have hw := w.isLt
  refine ⟨?_, ?_, ?_, ?_, ?_, ?_⟩
  · rw [Word.opClass, extract_toNat]; omega
  · exact extract_toNat w 8 4
  · exact extract_toNat w 4 4
  · rw [Word.fieldN, extract_toNat]; omega
  · rw [Word.fieldKK, extract_toNat]; omega
  · rw [Word.fieldNNN, extract_toNat]; omega

end Sys2Proof.Laws

/-! ## The cycle (40_cycle.md): the outcomes of a step, the fetch phase, precise faults, the latches, the poll -/

namespace Sys2Proof.Machine

open Sys2Proof.Laws

/-! ### What a step answers, case by case (R100) -/

theorem step_of_faulted {s : State} {f : Fault} (h : s.execState = .faulted f) : step s = .next s := by
  simp only [step, h]

theorem step_of_awaitingKey {s : State} {x : Reg} (h : s.execState = .awaitingKey x) :
    step s = .next (s.poll x).endStep := by
  simp only [step, h]

theorem step_of_fetch_fault {s : State} {f : Fault} (hr : s.execState = .running) (hf : s.fetchPhase = .error f) :
    step s = .next (s.raiseFault f) := by
  simp only [step, hr, stepRunning, hf]

theorem step_of_unknown {s : State} {w w' : Word} (hr : s.execState = .running) (hw : s.fetchPhase = .ok w)
    (hd : decode w = .unknown w') : step s = .next (s.advance.raiseFault .unknownOpcode) := by
  simp only [step, hr, stepRunning, hw, hd, execOp, execUnknown, endStepResult]
  rw [State.endStep_prevKeys_of_faulted _ _ rfl]

theorem step_of_executes {s u : State} {i : Instr} (hi : s.executes i) (hu : exec i s.advance = .next u) :
    step s = .next u.endStep := by
  obtain ⟨hr, w, hw, hd⟩ := hi
  simp only [step, hr, stepRunning, hw, hd, execOp, hu, endStepResult]

/-- Every step answers a next state (R113, log 8). -/
theorem step_answers_next (s : State) : ∃ t, step s = .next t := by
  cases hs : s.execState with
  | faulted f => exact ⟨_, step_of_faulted hs⟩
  | awaitingKey x => exact ⟨_, step_of_awaitingKey hs⟩
  | running =>
    cases hf : s.fetchPhase with
    | error f => exact ⟨_, step_of_fetch_fault hs hf⟩
    | ok w =>
      cases hd : decode w with
      | unknown w' => exact ⟨_, step_of_unknown hs hf hd⟩
      | known i =>
        obtain ⟨u, hu⟩ := exec_answers_next i s.advance
        exact ⟨_, step_of_executes ⟨hs, w, hf, hd⟩ hu⟩

theorem transact_step_of_next {s t : State} (h : step s = .next t) :
    transact .step s = .next (.exec t.execState, t) := by
  simp only [transact, h, stepReply]

/-- Settles O15: every case of a step answers a next state, and the transaction replies with its `EXEC`. -/
theorem stepReturnsExec : Obligations.StepReturnsExec := by
  unfold Obligations.StepReturnsExec
  intro s
  obtain ⟨t, ht⟩ := step_answers_next s
  exact ⟨t, ht, transact_step_of_next ht⟩

/-- Settles O9: the executed instruction's state, to which the end of the step adds the latch unless it faulted. -/
theorem stepRunsTheDecodedInstruction : Obligations.StepRunsTheDecodedInstruction := by
  unfold Obligations.StepRunsTheDecodedInstruction
  intro s w i hr hw hd
  obtain ⟨t, ht⟩ := exec_answers_next i s.advance
  have hstep := step_of_executes ⟨hr, w, hw, hd⟩ ht
  refine ⟨t, ht, fun ⟨f, hf⟩ => ?_, fun hnot => ?_⟩
  · rwa [State.endStep_prevKeys_of_faulted t f hf] at hstep
  · rwa [State.endStep_of_not_faulted t hnot] at hstep

/-- Settles O10: a word outside the table decodes to `UNKNOWN`, whose execution is the fault. -/
theorem unknownWordFaults : Obligations.UnknownWordFaults := by
  unfold Obligations.UnknownWordFaults
  intro s w hr hw hno
  exact step_of_unknown hr hw ((everyWordHasOneMeaning w).1 hno)

/-! ### The fetch phase (R101) -/

theorem State.fetchPhase_out_of_range {s : State} (h : s.pc.toNat + 1 ≥ memSize) :
    s.fetchPhase = .error .addressOutOfRange := by
  rw [State.fetchPhase, if_pos h]

theorem State.fetchPhase_pcInvariant {s : State} (h : s.pc.toNat + 1 < memSize) (hs : s.cfg.pcCheck = .strict)
    (hpc : s.pc.toNat % 2 = 1 ∨ s.pc.toNat < programBase) : s.fetchPhase = .error .pcInvariant := by
  rw [State.fetchPhase, if_neg (Nat.not_le_of_lt h), if_pos ⟨hs, hpc⟩]

/-- Settles O11: the two checks in their order, and the word that passes both. -/
theorem fetchPhaseChecksAndReads : Obligations.FetchPhaseChecksAndReads := by
  unfold Obligations.FetchPhaseChecksAndReads
  intro s hr
  refine ⟨fun h => ?_, fun h hs hpc => ?_, fun h hok => ?_⟩
  · exact step_of_fetch_fault hr (State.fetchPhase_out_of_range h)
  · exact step_of_fetch_fault hr (State.fetchPhase_pcInvariant h hs hpc)
  · refine (s.fetchPhase_ok_iff _).2 ⟨h, fun hs => ?_, rfl⟩
    exact hok.resolve_left (by simp [hs])

/-! ### Faults are precise (R106, R233) -/

/-- An instruction that starts unfaulted and ends `Faulted` has done nothing but enter the fault. -/
theorem exec_eq_raiseFault {i : Instr} {s t : State} {f : Fault} (hs : ∀ g, s.execState ≠ .faulted g)
    (h : exec i s = .next t) (hf : t.execState = .faulted f) : t = s.raiseFault f := by
  cases exec_controlEffect i s t h with
  | goesOn _ cfg mem stack sp exec pc => exact absurd (exec.symm.trans hf) (hs f)
  | faults g => cases hf; rfl
  | stores | calls | returns => exact absurd hf (hs f)
  | waits => cases hf

/-- Settles O12: a fault of either phase is fault entry, in the fetched-from or in the pre-advanced state. -/
theorem faultsArePrecise : Obligations.FaultsArePrecise := by
  unfold Obligations.FaultsArePrecise
  intro s t f hr hst hf
  refine ⟨fun ⟨g, hg⟩ => ?_, fun ⟨w, hw⟩ => ?_⟩
  · cases (step_of_fetch_fault hr hg).symm.trans hst
    cases hf
    rfl
  · cases hd : decode w with
    | unknown w' =>
      cases (step_of_unknown hr hw hd).symm.trans hst
      cases hf
      rfl
    | known i =>
      obtain ⟨u, hu⟩ := exec_answers_next i s.advance
      cases (step_of_executes ⟨hr, w, hw, hd⟩ hu).symm.trans hst
      rw [State.endStep_execState] at hf
      rw [State.endStep_prevKeys_of_faulted u f hf]
      exact exec_eq_raiseFault (by simp [hr]) hu hf

/-! ### In `Faulted` (R111, R234) -/

theorem State.tick_of_faulted {s : State} {f : Fault} (h : s.execState = .faulted f) : s.tick = s := by
  simp only [State.tick, h]

theorem State.load_execState {cfg : Config} {draws : Draws} {initFill : Nat → Byte} {image : List Byte} {s : State}
    (h : State.load cfg draws initFill image = .ok s) : s.execState = .running := by
  rw [((State.load_eq_ok_iff cfg draws initFill image s).1 h).2]
  rfl

/-- Settles O14: `step` and `tick` have their `Faulted` case, `setKeys` writes the latch, the reads write nothing. -/
theorem onlyLoadLeavesFaulted : Obligations.OnlyLoadLeavesFaulted := by
  unfold Obligations.OnlyLoadLeavesFaulted
  intro s f hf
  have hstep := step_of_faulted hf
  refine ⟨by rw [transact_step_of_next hstep, hf], hstep, State.tick_of_faulted hf, fun tr r t hne h => ?_,
    fun fill image r t h => ?_⟩
  · cases tr with
    | load fill image => exact absurd rfl (hne fill image)
    | step => cases hstep.symm.trans (step_of_stepReply s t r h); rfl
    | tick => cases h; rw [State.tick_of_faulted hf]
    | setKeys k => cases h; rfl
    | readFb | readSound | readExec => cases h; rfl
  · have hload := load_of_transact fill image s t r h
    exact ⟨hload, State.load_execState hload⟩

/-! ### The end of a step and the two latches (R109) -/

/-- Every step is some change that leaves both latches alone, and then the end of the step: where the step ends
`Faulted`, that end does nothing. -/
theorem step_eq_endStep {s t : State} (h : step s = .next t) :
    ∃ u : State, t = u.endStep ∧ u.keys = s.keys ∧ u.prevKeys = s.prevKeys := by
  rcases step_cases s t h with ⟨f, hf, rfl⟩ | ⟨x, -, rfl⟩ | ⟨-, f, -, rfl⟩ | ⟨-, w, w', -, -, rfl⟩ |
    ⟨-, w, i, u, -, -, hu, rfl⟩
  · exact ⟨_, (State.endStep_prevKeys_of_faulted _ f hf).symm, rfl, rfl⟩
  · exact ⟨_, rfl, (s.poll_unchanged x).keys, (s.poll_unchanged x).prevKeys⟩
  · exact ⟨_, (State.endStep_prevKeys_of_faulted _ f rfl).symm, rfl, rfl⟩
  · exact ⟨_, (State.endStep_prevKeys_of_faulted _ .unknownOpcode rfl).symm, rfl, rfl⟩
  · have hkeep := exec_unchanged i s.advance u hu
    exact ⟨u, rfl, hkeep.keys, hkeep.prevKeys⟩

/-- Settles O16: the end of the step alone writes `PREV_KEYS`, and nothing writes `KEYS`. -/
theorem stepEndsWithPrevKeys : Obligations.StepEndsWithPrevKeys := by
  unfold Obligations.StepEndsWithPrevKeys
  intro s t h
  obtain ⟨u, rfl, hkeys, hprev⟩ := step_eq_endStep h
  simp only [State.endStep_execState, State.endStep_keys]
  refine ⟨hkeys, fun hnot => ?_, fun ⟨f, hf⟩ => ?_⟩
  · rw [State.endStep_of_not_faulted u hnot]
    exact hkeys
  · rw [State.endStep_prevKeys_of_faulted u f hf]
    exact hprev

/-! ### The poll (R108) -/

theorem State.mem_keyEdges_iff_keyEdge (s : State) (k : Nat) : k ∈ s.keyEdges ↔ s.keyEdge k :=
  s.mem_keyEdges k

theorem State.keyEdges_eq_nil_iff (s : State) : s.keyEdges = [] ↔ ∀ k, ¬ s.keyEdge k := by
  simp only [List.eq_nil_iff_forall_not_mem, State.mem_keyEdges_iff_keyEdge]

/-- The register that captures a key holds the key's code (R108). -/
theorem State.keyEdge.readV_captured {s : State} {k : Nat} (h : s.keyEdge k) (t : State) (x : Reg) :
    ((t.writeV x (BitVec.ofNat 8 k)).readV x).toNat = k := by
  obtain ⟨hk, -, -⟩ := h
  rw [State.readV_writeV_same, BitVec.toNat_ofNat]
  omega

/-- A poll that chooses a key captures it (R108). -/
theorem State.poll_of_chooseKey {s t : State} {k : Nat} (x : Reg) (h : s.chooseKey s.keyEdges = some (k, t)) :
    s.poll x = { (t.writeV x (BitVec.ofNat 8 k)).advance with execState := .running } := by
  rw [State.poll, h]

/-- The latch moves on both sides of a claim alike. -/
theorem Unchanged.movePrevKeys {f : Footprint} {s t : State} (h : Unchanged f s t) :
    Unchanged f { s with prevKeys := s.keys } { t with prevKeys := t.keys } :=
  { h with prevKeys := h.keys }

/-- Settles O17: with no edge the poll does nothing; with one it captures a key of the edge set, within its frame. -/
theorem pollCapturesAnEdge : Obligations.PollCapturesAnEdge := by
  unfold Obligations.PollCapturesAnEdge
  intro s x hx
  refine ⟨fun hnone => ?_, fun hsome => ?_⟩
  · rw [step_of_awaitingKey hx, State.poll_no_edge s x (s.keyEdges_eq_nil_iff.2 hnone),
      State.endStep_of_not_faulted s (by simp [hx])]
  · have hne : s.keyEdges ≠ [] := fun hnil => by
      obtain ⟨k, hk⟩ := hsome
      exact s.keyEdges_eq_nil_iff.1 hnil k hk
    obtain ⟨k, hmem, d, hpoll⟩ := State.poll_edge s x hne
    have hk := (s.mem_keyEdges_iff_keyEdge k).1 hmem
    have hrun : (s.poll x).execState = .running := by rw [hpoll]
    refine ⟨k, _, hk, step_of_awaitingKey hx, ?_, by simp [hpoll], by simp [hrun], ?_⟩
    · rw [State.endStep_readV, hpoll]
      exact hk.readV_captured { s with draws := d } x
    · rw [State.endStep_of_not_faulted _ (by simp [hrun])]
      exact (s.poll_unchanged x).movePrevKeys

/-- Settles O18: a draw that makes the poll choose the key, by the choice's own lemma. -/
theorem pollAdmitsEveryEdge : Obligations.PollAdmitsEveryEdge := by
  unfold Obligations.PollAdmitsEveryEdge
  intro s x k hx hk
  obtain ⟨d, t, ht⟩ := s.chooseKey_admits s.keyEdges k ((s.mem_keyEdges_iff_keyEdge k).2 hk) s.keyEdges_length
  have hpoll := State.poll_of_chooseKey (s := { s with draws := d }) x ht
  refine ⟨d, _, step_of_awaitingKey hx, ?_, by rw [State.endStep_execState, hpoll]⟩
  rw [State.endStep_readV, hpoll]
  exact hk.readV_captured t x

/-! ### Frames and the final-good state (R105, R112) -/

/-- Settles O48: the frame of every instruction, instruction by instruction in `exec_unchanged`. -/
theorem everyInstructionKeepsItsFrame : Obligations.EveryInstructionKeepsItsFrame :=
  exec_unchanged

/-- The word of a jump to its own 12-bit address (R121). -/
theorem or_jump_class_eq_encode (p : Word) (h : p.toNat < 0x1000) :
    0x1000#16 ||| p = encode (.jump (p.setWidth 12)) := by
  have hor : (0x1000#16 ||| p).toNat = 2 ^ 12 * 1 + p.toNat := by
    rw [Nat.two_pow_add_eq_or_of_lt h]
    exact BitVec.toNat_or _ _
  apply BitVec.eq_of_toNat_eq
  rw [hor, encode, formatFA_toNat, BitVec.toNat_setWidth, Nat.mod_eq_of_lt h]
  rfl

/-- Settles O52: the fetch puts `PC` below 4096, so the word is a jump whose target is `PC` itself. -/
theorem finalGoodStateIdles : Obligations.FinalGoodStateIdles := by
  unfold Obligations.FinalGoodStateIdles
  intro s ⟨hr, hw⟩
  have hlt : s.pc.toNat < 0x1000 := by
    obtain ⟨hbound, -, -⟩ := (s.fetchPhase_ok_iff _).1 hw
    exact Nat.lt_of_succ_lt hbound
  have htarget : (s.pc.setWidth 12).setWidth 16 = s.pc := by
    apply BitVec.eq_of_toNat_eq
    simp only [BitVec.toNat_setWidth]
    omega
  have hjump : s.executes (.jump (s.pc.setWidth 12)) :=
    ⟨hr, _, hw, by rw [or_jump_class_eq_encode s.pc hlt, decodeOfEncode]⟩
  rw [step_of_executes hjump rfl, State.endStep_of_not_faulted _ (by simp [hr]), htarget]
  rfl

end Sys2Proof.Machine

/-! ## Control transfer (41_control_flow.md): jumps, the call and its return, the compare-and-skip instructions -/

namespace Sys2Proof.Machine

open Sys2Proof.Laws

/-! ### Jumps (R121, R125) -/

/-- Settles O25: the target written to `PC` is below 4096, so 16 bits hold it. -/
theorem jumpTargets : Obligations.JumpTargets := by
  unfold Obligations.JumpTargets
  intro nnn s
  refine ⟨decodeOfEncode (.jump nnn), decodeOfEncode (.jumpOffset nnn),
    ⟨_, rfl, ?_, Unchanged.setPc s _⟩, ⟨_, rfl, ?_, Unchanged.setPc s _⟩⟩
  · exact BitVec.toNat_setWidth_of_le (by decide)
  · have htarget : (nnn.toNat + (s.readV 0).toNat) % 4096 < 2 ^ 16 := by omega
    exact (BitVec.toNat_ofNat _ _).trans (Nat.mod_eq_of_lt htarget)

/-! ### The call and its return (R120, R122) -/

theorem exec_call_of_room (nnn : BitVec 12) {s : State} {k : Fin 16} (h : s.sp = k.castSucc) :
    exec (.call nnn) s =
      .next { s with stack := s.stack.set k s.pc, sp := k.succ, pc := nnn.setWidth 16 } := by
  have hk : s.sp.val = k.val := by rw [h]; rfl
  rw [exec, execCall_eq, dif_pos (by omega)]
  simp only [hk]
  rfl

theorem exec_call_of_full (nnn : BitVec 12) {s : State} (h : s.sp.val = 16) :
    exec (.call nnn) s = .next (s.raiseFault .stackOverflow) := by
  rw [exec, execCall_eq, dif_neg (by omega)]

theorem exec_ret_of_nonempty {s : State} {k : Fin 16} (h : s.sp = k.succ) :
    exec .ret s = .next { s with pc := s.stack[k], sp := k.castSucc } := by
  have hk : s.sp.val = k.val + 1 := by rw [h]; rfl
  rw [exec, execRet_eq, if_neg (by omega)]
  simp only [hk]
  rfl

theorem exec_ret_of_empty {s : State} (h : s.sp.val = 0) :
    exec .ret s = .next (s.raiseFault .stackUnderflow) := by
  rw [exec, execRet_eq, if_pos h]

theorem Unchanged.setPcStack (s : State) (w : Word) (stack : Vector Word 16) (sp : Fin 17) :
    Unchanged { pc := true, stack := true } s { s with pc := w, stack := stack, sp := sp } :=
  { Unchanged.refl {} s with pc := by simp, stack := by simp, sp := by simp }

/-- Settles O26: the push with room for an entry, and the fault of a full stack. -/
theorem callPushesAndJumps : Obligations.CallPushesAndJumps := by
  unfold Obligations.CallPushesAndJumps
  intro nnn s
  refine ⟨decodeOfEncode (.call nnn), fun hroom => ?_, exec_call_of_full nnn⟩
  refine ⟨_, exec_call_of_room nnn (k := s.sp.castLT hroom) rfl, BitVec.toNat_setWidth_of_le (by decide), rfl,
    fun k => ?_, Unchanged.setPcStack s _ _ _⟩
  simp [Vector.getElem_set, eq_comm]

/-- Settles O27: the pop of the newest entry, and the fault of an empty stack. -/
theorem returnPops : Obligations.ReturnPops := by
  unfold Obligations.ReturnPops
  intro s
  refine ⟨decodeOfEncode .ret, fun hpos => ?_, exec_ret_of_empty⟩
  obtain ⟨top, htop⟩ := Fin.exists_succ_eq.2 (Fin.pos_iff_ne_zero.1 hpos)
  have hsp : s.sp.val = top.val + 1 := by rw [← htop]; rfl
  refine ⟨_, exec_ret_of_nonempty htop.symm, fun k hk => ?_, hsp.symm, rfl, Unchanged.setPcStack s _ _ _⟩
  have : k = top := Fin.ext (by omega)
  rw [this]

/-- Settles O28: the return pops the entry the call has just pushed, at the depth the call found. -/
theorem returnUndoesCall : Obligations.ReturnUndoesCall := by
  unfold Obligations.ReturnUndoesCall
  intro nnn s t p hroom ht
  obtain ⟨top, htop⟩ : ∃ k : Fin 16, s.sp = k.castSucc := ⟨s.sp.castLT hroom, rfl⟩
  rw [exec_call_of_room nnn htop] at ht
  cases ht
  refine ⟨_, exec_ret_of_nonempty (k := top) rfl, ?_, htop.symm, fun k hk => ?_⟩
  · exact Vector.getElem_set_self _
  · have hbelow : k.val < top.val := by simpa [htop] using hk
    exact Vector.getElem_set_ne top.isLt _ hbelow.ne'

/-! ### Compare and skip (R126 to R130) -/

/-- A skip (R130) on a test that decides `P`: `PC` two more when `P` holds, and nothing else changed. -/
theorem skipIf_completes (s : State) {c : Bool} {P : Prop} [Decidable P] (h : c = true ↔ P) :
    ∃ t, (.next (s.skipIf c) : Result) = .next t ∧ t.pc = (if P then s.pc + 2 else s.pc) ∧
      Unchanged { pc := true } s t := by
  refine ⟨_, rfl, ?_, Unchanged.skipIf s c⟩
  by_cases hP : P
  · rw [if_pos hP, h.2 hP]; rfl
  · rw [if_neg hP, Bool.eq_false_iff.2 (mt h.1 hP)]; rfl

/-- Settles O29: each of the four is a skip on its comparison. -/
theorem compareAndSkip : Obligations.CompareAndSkip := by
  unfold Obligations.CompareAndSkip
  intro x y kk s
  exact ⟨decodeOfEncode (.skipEqImm x kk), decodeOfEncode (.skipNeImm x kk), decodeOfEncode (.skipEqReg x y),
    decodeOfEncode (.skipNeReg x y), skipIf_completes s beq_iff_eq, skipIf_completes s bne_iff_ne,
    skipIf_completes s beq_iff_eq, skipIf_completes s bne_iff_ne⟩

end Sys2Proof.Machine

/-! ## The ALU (42_alu.md): immediates, moves and logic, the flag-writing arithmetic and shifts, the random byte -/

namespace Sys2Proof.Machine

open Sys2Proof.Laws

/-! ### Results and flags as numbers (R140) -/

@[simp] theorem toNat_addResult (a b : Byte) : (addResult a b).toNat = (a.toNat + b.toNat) % 256 := by
  simp [addResult]

@[simp] theorem toNat_subResult (a b : Byte) : (subResult a b).toNat = (a.toNat + 256 - b.toNat) % 256 := by
  simp [subResult]

@[simp] theorem toNat_shrResult (a : Byte) : (shrResult a).toNat = a.toNat / 2 := by
  simp [shrResult, Nat.shiftRight_succ]

@[simp] theorem toNat_shlResult (a : Byte) : (shlResult a).toNat = a.toNat * 2 % 256 := by
  simp [shlResult, Nat.shiftLeft_eq]

@[simp] theorem toNat_flagByte (f : Bool) : (flagByte f).toNat = if f then 1 else 0 := by
  cases f <;> rfl

theorem addCarry_iff (a b : Byte) : addCarry a b = true ↔ a.toNat + b.toNat > 255 :=
  decide_eq_true_iff

theorem subNoBorrow_iff (a b : Byte) : subNoBorrow a b = true ↔ a.toNat ≥ b.toNat :=
  decide_eq_true_iff

theorem shrOut_iff (a : Byte) : shrOut a = true ↔ a.toNat % 2 = 1 := by
  simp [shrOut, BitVec.getLsbD, Nat.testBit_zero]

theorem shlOut_iff (a : Byte) : shlOut a = true ↔ a.toNat / 128 = 1 := by
  have hbit : shlOut a = decide (a.toNat / 2 ^ 7 % 2 = 1) := Nat.testBit_eq_decide_div_mod_eq
  have := a.isLt
  rw [hbit, decide_eq_true_iff]
  omega

/-- The shift source as a number, by either setting of `shiftSrc` (R156, R158, D15). -/
theorem State.toNat_shiftOperand {s : State} {x y : Reg} {a : Nat}
    (h : (s.cfg.shiftSrc = .vx ∧ a = (s.readV x).toNat) ∨ (s.cfg.shiftSrc = .vy ∧ a = (s.readV y).toNat)) :
    (s.shiftOperand x y).toNat = a := by
  obtain ⟨hsrc, rfl⟩ | ⟨hsrc, rfl⟩ := h <;> rw [State.shiftOperand, hsrc]

/-! ### The two ways an ALU instruction completes -/

/-- A meaning that is one register write completes with that write (R21). -/
theorem writeV_completes (s : State) (x : Reg) (b : Byte) :
    ∃ t, (.next (s.writeV x b) : Result) = .next t ∧ t.readV x = b ∧ Unchanged { regs := [x] } s t :=
  ⟨_, rfl, State.readV_writeV_same s x b, Unchanged.writeV s x b⟩

/-- What `write_fr` leaves in `V[x]` and `VF` (R141), in the terms of `ResultAndFlag`. -/
theorem State.resultAndFlag_writeFR (s : State) (x : Reg) (r : Byte) {f : Bool} {flag : Prop} [Decidable flag]
    (hf : f = true ↔ flag) : ResultAndFlag s (s.writeFR x r f) x r.toNat flag := by
  refine ⟨fun hx => ⟨?_, ?_⟩, ?_, ?_⟩
  · simp [State.readV_writeFR, hx]
  · simp [State.readV_writeFR, hx.symm, hf]
  · rintro rfl ho
    simp [State.readV_writeFR, ho]
  · rintro rfl ho
    simp [State.readV_writeFR, ho, hf]

/-- A meaning that is one `write_fr` of the byte `result` and of the decision of `flag` completes with both (R141). -/
theorem writeFR_completes (s : State) (x : Reg) {r : Byte} {f : Bool} {result : Nat} {flag : Prop} [Decidable flag]
    (hr : r.toNat = result) (hf : f = true ↔ flag) :
    ∃ t, (.next (s.writeFR x r f) : Result) = .next t ∧ ResultAndFlag s t x result flag ∧
      Unchanged { regs := [x, VF] } s t :=
  ⟨_, rfl, hr ▸ s.resultAndFlag_writeFR x r hf, Unchanged.writeFR s x r f⟩

/-! ### Immediates, moves and logic (R142, R143, R148 to R151) -/

/-- Settles O19: both are one register write, of the immediate and of the sum. -/
theorem loadAndAddImmediate : Obligations.LoadAndAddImmediate := by
  unfold Obligations.LoadAndAddImmediate
  intro x kk s
  obtain ⟨t, hexec, hread, hframe⟩ := writeV_completes s x (addResult (s.readV x) kk)
  exact ⟨decodeOfEncode (.loadImm x kk), decodeOfEncode (.addImm x kk), writeV_completes s x kk,
    t, hexec, by rw [hread, toNat_addResult], hframe⟩

/-- Settles O20: each of the four is one register write. -/
theorem moveAndLogic : Obligations.MoveAndLogic := by
  unfold Obligations.MoveAndLogic
  intro x y s
  exact ⟨decodeOfEncode (.move x y), decodeOfEncode (.or x y), decodeOfEncode (.and x y), decodeOfEncode (.xor x y),
    writeV_completes s x _, writeV_completes s x _, writeV_completes s x _, writeV_completes s x _⟩

/-! ### Arithmetic and shifts with a flag (R152, R153, R156 to R158) -/

/-- Settles O21: one `write_fr` of the sum and the carry. -/
theorem addWithCarryFlag : Obligations.AddWithCarryFlag := by
  unfold Obligations.AddWithCarryFlag
  intro x y s
  exact ⟨decodeOfEncode (.add x y), writeFR_completes s x (toNat_addResult _ _) (addCarry_iff _ _)⟩

/-- Settles O22: each is one `write_fr` of its difference and its no-borrow. -/
theorem subtractWithNoBorrowFlag : Obligations.SubtractWithNoBorrowFlag := by
  unfold Obligations.SubtractWithNoBorrowFlag
  intro x y s
  exact ⟨decodeOfEncode (.sub x y), decodeOfEncode (.subn x y),
    writeFR_completes s x (toNat_subResult _ _) (subNoBorrow_iff _ _),
    writeFR_completes s x (toNat_subResult _ _) (subNoBorrow_iff _ _)⟩

/-- Settles O23: each is one `write_fr` of the shifted source and the bit shifted out. -/
theorem shiftsWithBitOut : Obligations.ShiftsWithBitOut := by
  unfold Obligations.ShiftsWithBitOut
  intro x y s a hsrc
  obtain rfl := State.toNat_shiftOperand hsrc
  exact ⟨decodeOfEncode (.shr x y), decodeOfEncode (.shl x y),
    writeFR_completes s x (toNat_shrResult _) (shrOut_iff _), writeFR_completes s x (toNat_shlResult _) (shlOut_iff _)⟩

/-! ### The random byte (R160) -/

/-- A byte with no bit outside the mask is its own masked value. -/
theorem and_mask_of_and_not_mask {b kk : Byte} (h : b &&& ~~~kk = 0) : b &&& kk = b := by
  calc b &&& kk = (b &&& kk) ||| (b &&& ~~~kk) := by rw [h, BitVec.ofNat_eq_ofNat, BitVec.or_zero]
    _ = b &&& (kk ||| ~~~kk) := BitVec.and_or_distrib_left.symm
    _ = b := by rw [BitVec.or_not_self, BitVec.and_allOnes]

/-- Settles O24: the drawn byte is masked, and a tape that begins with the wanted byte gives that byte. -/
theorem randomMaskedByte : Obligations.RandomMaskedByte := by
  unfold Obligations.RandomMaskedByte
  intro x kk s
  refine ⟨decodeOfEncode (.rand x kk),
    ⟨_, s.drawByte.1, rfl, State.readV_writeV_same _ x _, Unchanged.drawByte_writeV s x _⟩,
    fun b hb => ⟨⟨[b], 0⟩, _, rfl, ?_⟩⟩
  rw [State.readV_writeV_same, State.drawByte_laid_out, and_mask_of_and_not_mask hb]

end Sys2Proof.Machine

/-! ## Address register and memory (43_index_memory.md): `I`, the stores of digits and registers, the register load -/

namespace Sys2Proof.Machine

open Sys2Proof.Laws

/-! ### Block stores from `I` (R173, R174, R175) -/

/-- A block that fits and begins in no protected byte is stored, byte `k` at `I + k`, and nothing else changes (R57). -/
theorem storeBlock_completes (s : State) (bs : List Byte) (hb : 0 < bs.length)
    (hfits : s.i.toNat + bs.length ≤ memSize) (hlow : s.cfg.lowWrite = .fault → programBase ≤ s.i.toNat) :
    ∃ t, completeOr s (s.storeBlock s.i.toNat bs) = .next t ∧
      (∀ k (hk : k < bs.length), t.mem.read (s.i.toNat + k) = bs[k]) ∧
      Unchanged { bytes := storeAddrs s bs.length } s t := by
  have hnotlow : ¬ (s.cfg.lowWrite = .fault ∧ s.i.toNat < programBase) := fun ⟨hf, hlt⟩ => (hlow hf).not_gt hlt
  refine ⟨{ s with mem := s.mem.writeBytes s.i.toNat bs }, ?_, fun k hk => ?_, Unchanged.storeBytes s bs⟩
  · rw [completeOr_storeBlock s bs hb, if_neg hnotlow, if_pos hfits]
  · exact Memory.read_writeBytes_stored _ _ _ _ hk

/-- Under `lowWrite = fault` a block from a low `I` faults at its first address (R53, D6). -/
theorem storeBlock_of_low (s : State) (bs : List Byte) (hb : 0 < bs.length) (hfault : s.cfg.lowWrite = .fault)
    (hlow : s.i.toNat < programBase) :
    completeOr s (s.storeBlock s.i.toNat bs) = .next (s.raiseFault .fontWrite) := by
  rw [completeOr_storeBlock s bs hb, if_pos ⟨hfault, hlow⟩]

/-- A block past the end of memory faults. No block has more bytes than there are registers, so such a block begins
above the low region. -/
theorem storeBlock_out_of_range (s : State) (bs : List Byte) (hb : 0 < bs.length) (hmax : bs.length ≤ 16)
    (hpast : memSize < s.i.toNat + bs.length) :
    completeOr s (s.storeBlock s.i.toNat bs) = .next (s.raiseFault .addressOutOfRange) := by
  have hnotlow : ¬ s.i.toNat < programBase := by
    simp only [memSize, programBase] at hpast ⊢
    omega
  rw [completeOr_storeBlock s bs hb, if_neg (hnotlow ·.2), if_neg hpast.not_ge]

/-- Settles O32: `Fx33` is a block store of the three digits. -/
theorem decimalDigitsStored : Obligations.DecimalDigitsStored := by
  unfold Obligations.DecimalDigitsStored
  intro x s
  have hpos : 0 < (bcdDigits (s.readV x)).length := by simp
  refine ⟨decodeOfEncode (.bcd x), fun hfits hlow => ?_, storeBlock_of_low s _ hpos, fun hpast => ?_⟩
  · obtain ⟨t, hexec, hread, hframe⟩ := storeBlock_completes s _ hpos (Nat.succ_le_of_lt hfits) hlow
    have hdigit (k : Nat) (hk : k < (bcdDigits (s.readV x)).length) :
        (t.mem.read (s.i.toNat + k)).toNat = decimalDigit (s.readV x) k := by
      rw [hread k hk, getElem_bcdDigits]
    exact ⟨t, hexec, hdigit 0 (by simp), hdigit 1 (by simp), hdigit 2 (by simp), hframe⟩
  · exact storeBlock_out_of_range s _ hpos (by simp) (Nat.lt_succ_of_le hpast)

/-- Settles O33: `Fx55` is a block store of the registers up to `V[x]`. -/
theorem registersStored : Obligations.RegistersStored := by
  unfold Obligations.RegistersStored
  intro x s
  have hlen := s.firstRegs_length x
  have hpos : 0 < (s.firstRegs (x.toNat + 1)).length := by omega
  refine ⟨decodeOfEncode (.storeRegs x), fun hfits hlow => ?_, storeBlock_of_low s _ hpos, fun hpast => ?_⟩
  · obtain ⟨t, hexec, hread, hframe⟩ := storeBlock_completes s _ hpos (by simp only [memSize]; omega) hlow
    rw [hlen] at hframe
    refine ⟨t, hexec, fun r hr => ?_, hframe⟩
    rw [hread r.toNat (by omega), State.getElem_firstRegs]
  · exact storeBlock_out_of_range s _ hpos (by omega) (by simp only [memSize]; omega)

/-! ### The register load (R174, R176) -/

theorem State.readV_writeRegs_loaded (s : State) (bs : List Byte) (hmax : bs.length ≤ 16) (r : Reg)
    (hr : r.toNat < bs.length) : (s.writeRegs 0 bs).readV r = bs[r.toNat] := by
  rw [State.readV_writeRegs bs s 0 (by omega), if_pos (by omega), Nat.sub_zero, List.getD_eq_getElem _ _ hr]

/-- Settles O34: `Fx65` writes the bytes of the block from `I` to the registers up to `V[x]`. -/
theorem registersLoaded : Obligations.RegistersLoaded := by
  unfold Obligations.RegistersLoaded
  intro x s
  refine ⟨decodeOfEncode (.loadRegs x), fun hfits => ?_, fun hpast => ?_⟩
  · refine ⟨_, (execLoadRegs_eq x s).trans (if_pos (Nat.succ_le_of_lt hfits)), fun r hr => ?_,
      Unchanged.writeRegs s x _ (by simp)⟩
    rw [State.readV_writeRegs_loaded s _ (by simpa using x.isLt) r (by simpa using hr)]
    simp
  · exact (execLoadRegs_eq x s).trans (if_neg (Nat.lt_succ_of_le hpast).not_ge)

/-! ### The address register (R170, R171, R172) -/

/-- Settles O30: both are one write of `I`, of a value that 16 bits hold. -/
theorem setAddressRegister : Obligations.SetAddressRegister := by
  unfold Obligations.SetAddressRegister
  intro nnn x s
  refine ⟨decodeOfEncode (.loadI nnn), decodeOfEncode (.fontAddr x),
    ⟨_, rfl, BitVec.toNat_setWidth_of_le (by decide), Unchanged.setI s _⟩, ⟨_, rfl, ?_, Unchanged.setI s _⟩⟩
  have hglyph : (s.readV x).toNat * 5 < 2 ^ 16 := by omega
  exact (BitVec.toNat_ofNat _ _).trans (Nat.mod_eq_of_lt hglyph)

@[simp] theorem toNat_addIResult (i : Word) (b : Byte) : (addIResult i b).toNat = (i.toNat + b.toNat) % 0x10000 := by
  simp [addIResult]

theorem addIOver_iff (newI : Word) : addIOver newI = true ↔ newI.toNat > 0xFFF :=
  decide_eq_true_iff

theorem exec_addI_of_set (x : Reg) {s : State} (h : s.cfg.addIFlag = .set) :
    exec (.addI x) s =
      .next ({ s with i := addIResult s.i (s.readV x) }.writeV VF
        (flagByte (addIOver (addIResult s.i (s.readV x))))) := by
  rw [exec, execAddI, h]

theorem exec_addI_of_unchanged (x : Reg) {s : State} (h : s.cfg.addIFlag = .unchanged) :
    exec (.addI x) s = .next { s with i := addIResult s.i (s.readV x) } := by
  rw [exec, execAddI, h]

/-- Whatever `addIFlag`, `Fx1E` changes at most `I` and `VF` (R171). -/
theorem unchanged_of_exec_addI {x : Reg} {s t : State} (h : exec (.addI x) s = .next t) :
    Unchanged { i := true, regs := [VF] } s t := by
  have hregs : ∀ r ∈ (footprint (.addI x) s).regs, r ∈ [VF] := by
    intro r hr
    simp only [footprint] at hr
    split at hr
    · exact hr
    · exact absurd hr List.not_mem_nil
  exact (Unchanged.execAddI x s t h).mono hregs (fun _ => id) id id id id id id id id

/-- Settles O31: one write of the wrapped sum, and under `addIFlag = set` one write of its flag. -/
theorem addToAddressRegister : Obligations.AddToAddressRegister := by
  unfold Obligations.AddToAddressRegister
  intro x s
  refine ⟨decodeOfEncode (.addI x), ?_⟩
  cases hflag : s.cfg.addIFlag with
  | set =>
    have hexec := exec_addI_of_set x hflag
    refine ⟨_, hexec, toNat_addIResult _ _, fun _ => ?_, nofun, unchanged_of_exec_addI hexec⟩
    rw [State.readV_writeV_same, toNat_flagByte]
    exact if_congr (addIOver_iff _) rfl rfl
  | unchanged =>
    have hexec := exec_addI_of_unchanged x hflag
    exact ⟨_, hexec, toNat_addIResult _ _, nofun, fun _ => rfl, unchanged_of_exec_addI hexec⟩

end Sys2Proof.Machine

/-! ## The display (44_display.md): the clear, the pixels a draw flips and its collision flag, the second draw -/

namespace Sys2Proof.Machine

open Sys2Proof.Laws

/-- Settles O38: the blank display has every pixel 0, and the rest is the clear's frame. -/
theorem clearTurnsEveryPixelOff : Obligations.ClearTurnsEveryPixelOff := by
  unfold Obligations.ClearTurnsEveryPixelOff
  exact fun s => ⟨decodeOfEncode .clear, _, rfl, Display.pixel_blank, exec_unchanged .clear s _ rfl⟩

/-! ### The sprite and its pixels (R191, R192) -/

/-- The `n` bytes of the sprite at `I`. -/
def State.spriteBytes (s : State) (n : BitVec 4) : List Byte := (List.range n.toNat).map s.spriteByte

@[simp] theorem State.spriteBytes_length (s : State) (n : BitVec 4) : (s.spriteBytes n).length = n.toNat := by
  simp [State.spriteBytes]

theorem State.spriteBytes_getD (s : State) (n : BitVec 4) (j : Nat) (h : j < n.toNat) :
    (s.spriteBytes n).getD j 0 = s.spriteByte j := by
  simp [State.spriteBytes, h]

/-- The pixels that `Dxyn` toggles, in the blitter's order. -/
def State.drawnPixels (s : State) (x y : Reg) (n : BitVec 4) : List (Fin 32 × Fin 64) :=
  spritePixels s.cfg.drawEdge (s.spriteCol x) (s.spriteRow y) (s.spriteBytes n)

theorem State.nodup_drawnPixels (s : State) (x y : Reg) (n : BitVec 4) : (s.drawnPixels x y n).Nodup :=
  nodup_spritePixels _ _ _ _ (by have := n.isLt; rw [s.spriteBytes_length]; omega)

/-- The blitter toggles the covered pixels. -/
theorem State.mem_drawnPixels_iff (s : State) (x y : Reg) (n : BitVec 4) (r : Fin 32) (c : Fin 64) :
    (r, c) ∈ s.drawnPixels x y n ↔ s.covers x y n r c := by
  rw [State.drawnPixels, mem_spritePixels, s.spriteBytes_length, State.covers]
  simp only [edgePixel_eq_some_iff]
  constructor
  · rintro ⟨j, hj, k, hk, hbit, hplace⟩
    rw [s.spriteBytes_getD n j hj] at hbit
    exact ⟨j, k, hj, hk, hbit, hplace⟩
  · rintro ⟨j, k, hj, hk, hbit, hplace⟩
    rw [← s.spriteBytes_getD n j hj] at hbit
    exact ⟨j, hj, k, hk, hbit, hplace⟩

/-- Where two states agree on the sprite's bytes and its place, it covers the same pixels. -/
theorem State.covers_congr {s t : State} {x y x' y' : Reg} (hcfg : t.cfg = s.cfg)
    (hbyte : ∀ j, t.spriteByte j = s.spriteByte j) (hcol : t.spriteCol x' = s.spriteCol x)
    (hrow : t.spriteRow y' = s.spriteRow y) (n : BitVec 4) (r : Fin 32) (c : Fin 64) :
    t.covers x' y' n r c ↔ s.covers x y n r c := by
  simp only [State.covers, hcfg, hbyte, hcol, hrow]

/-! ### What a draw leaves (R192, R193) -/

/-- A pixel that was 1 when toggled is a pixel that went from 1 to 0. -/
theorem blit_hit_iff (fb : Display) {ps : List (Fin 32 × Fin 64)} (hps : ps.Nodup) :
    (blit fb false ps).2 = true ↔ ∃ r c, fb.pixel r c = true ∧ (blit fb false ps).1.pixel r c = false := by
  obtain ⟨hpixel, hhit⟩ := blit_spec ps fb false hps
  rw [hhit, Bool.false_or, decide_eq_true_iff]
  constructor
  · rintro ⟨⟨r, c⟩, hmem, hset⟩
    exact ⟨r, c, hset, by simp [hpixel, hmem, hset]⟩
  · rintro ⟨r, c, hset, hcleared⟩
    exact ⟨(r, c), by simpa [hpixel, hset] using hcleared, hset⟩

/-- `Dxyn` with `n = 0` or a sprite inside memory completes. -/
theorem exec_draw_of_fits (x y : Reg) {n : BitVec 4} {s : State} (h : n.toNat = 0 ∨ s.i.toNat + n.toNat ≤ memSize) :
    exec (.draw x y n) s = .next (s.drawSprite x y (s.spriteBytes n)) :=
  (execDraw_eq x y n s).trans (if_pos h)

theorem State.pixel_drawSprite_of_covers {s : State} {x y : Reg} {n : BitVec 4} {r : Fin 32} {c : Fin 64}
    (h : s.covers x y n r c) : (s.drawSprite x y (s.spriteBytes n)).fb.pixel r c = !s.fb.pixel r c := by
  refine ((blit_spec _ s.fb false (s.nodup_drawnPixels x y n)).1 r c).trans ?_
  rw [decide_eq_true ((s.mem_drawnPixels_iff x y n r c).2 h), Bool.xor_true]

theorem State.pixel_drawSprite_of_not_covers {s : State} {x y : Reg} {n : BitVec 4} {r : Fin 32} {c : Fin 64}
    (h : ¬ s.covers x y n r c) : (s.drawSprite x y (s.spriteBytes n)).fb.pixel r c = s.fb.pixel r c := by
  refine ((blit_spec _ s.fb false (s.nodup_drawnPixels x y n)).1 r c).trans ?_
  rw [decide_eq_false (mt (s.mem_drawnPixels_iff x y n r c).1 h), Bool.xor_false]

/-- After a draw `VF` is the flag of a collision: some pixel went from 1 to 0. -/
theorem State.readV_VF_drawSprite (s : State) (x y : Reg) (n : BitVec 4) :
    ∃ hit, (s.drawSprite x y (s.spriteBytes n)).readV VF = flagByte hit ∧
      (hit = true ↔
        ∃ r c, s.fb.pixel r c = true ∧ (s.drawSprite x y (s.spriteBytes n)).fb.pixel r c = false) :=
  ⟨_, State.readV_writeV_same _ VF _, blit_hit_iff s.fb (s.nodup_drawnPixels x y n)⟩

/-- Settles O39: a draw that fits flips what the blitter toggles, the covered pixels, each once; one that does not fit
fails the block check before any pixel moves. -/
theorem drawFlipsTheCoveredPixels : Obligations.DrawFlipsTheCoveredPixels := by
  unfold Obligations.DrawFlipsTheCoveredPixels
  intro x y n s
  refine ⟨decodeOfEncode (.draw x y n), fun hfits => ?_, fun hpos hpast => ?_⟩
  · obtain ⟨hit, hVF, hhit⟩ := s.readV_VF_drawSprite x y n
    refine ⟨_, exec_draw_of_fits x y hfits, fun _ _ => State.pixel_drawSprite_of_covers,
      fun _ _ => State.pixel_drawSprite_of_not_covers, fun hcollision => ?_, fun hnone => ?_,
      Unchanged.drawSprite s x y _⟩
    · rw [hVF, hhit.2 hcollision]; rfl
    · rw [hVF, Bool.eq_false_of_not_eq_true (mt hhit.1 hnone)]; rfl
  · exact (execDraw_eq x y n s).trans (if_neg (by simp only [memSize]; omega))

/-- Settles O40: a sprite of no bytes toggles nothing, so only the cleared flag is written. -/
theorem drawOfHeightZero : Obligations.DrawOfHeightZero := by
  unfold Obligations.DrawOfHeightZero
  intro x y s
  have hexec : exec (.draw x y 0) s = .next (s.writeV VF 0) := exec_draw_of_fits x y (.inl rfl)
  exact ⟨_, hexec, s.readV_writeV_same VF 0, Unchanged.writeV s VF 0⟩

/-! ### The second draw (R194) -/

/-- A draw leaves the sprite's bytes alone, so drawn again at the same place it covers the same pixels. -/
theorem Unchanged.covers_iff {s t : State} {x y x' y' : Reg} (h : Unchanged { regs := [VF], fb := true } s t)
    (hcol : t.spriteCol x' = s.spriteCol x) (hrow : t.spriteRow y' = s.spriteRow y) (n : BitVec 4) (r : Fin 32)
    (c : Fin 64) : t.covers x' y' n r c ↔ s.covers x y n r c := by
  refine State.covers_congr h.cfg (fun j => ?_) hcol hrow n r c
  rw [State.spriteByte, State.spriteByte, h.i rfl, h.bytes _ List.not_mem_nil]

/-- Settles O41: both draws flip the same pixels, so the second undoes the first, and a pixel it turns off is one the
first turned on. -/
theorem drawTwiceRestores : Obligations.DrawTwiceRestores := by
  unfold Obligations.DrawTwiceRestores
  intro x y x' y' n s t hfits hexec hcol hrow
  obtain ⟨-, hdraw, -⟩ := drawFlipsTheCoveredPixels x y n s
  obtain ⟨t', ht, hflip, hkeep, -, -, hframe⟩ := hdraw hfits
  obtain rfl : t' = t := Host.Outcome.next.inj (ht.symm.trans hexec)
  obtain ⟨-, hredraw, -⟩ := drawFlipsTheCoveredPixels x' y' n t'
  obtain ⟨u, hu, hflip', hkeep', hVFone, hVFzero, -⟩ := hredraw (by rwa [hframe.i rfl])
  have hcovers := hframe.covers_iff hcol hrow n
  have hrestored : u.fb = s.fb := by
    refine Display.ext_pixel _ _ fun r c => ?_
    by_cases hc : s.covers x y n r c
    · rw [hflip' r c ((hcovers r c).2 hc), hflip r c hc, Bool.not_not]
    · rw [hkeep' r c (mt (hcovers r c).1 hc), hkeep r c hc]
  rw [hrestored] at hVFone hVFzero
  refine ⟨u, hu, hrestored, fun hone => ?_, fun ⟨r, c, hoff, hon⟩ => hVFone ⟨r, c, hon, hoff⟩⟩
  by_contra hnone
  have hzero := hVFzero fun ⟨r, c, hon, hoff⟩ => hnone ⟨r, c, hoff, hon⟩
  exact absurd (hone.symm.trans hzero) (by decide)

end Sys2Proof.Machine

/-! ## Input and timers (45_input_timers.md): the key skips, the timer reads and writes, the wait for a key -/

namespace Sys2Proof.Machine

open Sys2Proof.Laws

/-! ### The key skips (R210, R211, R212) -/

/-- Settles O42: a byte that has a key index makes each a skip on that key's level, and any other byte faults both. -/
theorem keySkips : Obligations.KeySkips := by
  unfold Obligations.KeySkips
  intro x s
  simp only [exec, execSkipKeyDown_eq, execSkipKeyUp_eq]
  refine ⟨decodeOfEncode (.skipKeyDown x), decodeOfEncode (.skipKeyUp x), ?_, fun hhigh hfault => ?_⟩
  · rintro k rfl hindex
    rw [if_pos hindex, if_pos hindex]
    exact ⟨skipIf_completes s Iff.rfl, skipIf_completes s (Bool.not_eq_true' _).to_iff⟩
  · have hnoindex : ¬ ((s.readV x).toNat < 16 ∨ s.cfg.keyIndex = .mask) := by simp [hfault, hhigh]
    rw [if_neg hnoindex, if_neg hnoindex]
    exact ⟨rfl, rfl⟩

/-! ### The timers (R213, R215, R216) -/

/-- Settles O43: `Fx07` is a register write, and the two timer writes have the frames of their footprints. -/
theorem timerInstructions : Obligations.TimerInstructions := by
  unfold Obligations.TimerInstructions
  intro x s
  exact ⟨decodeOfEncode (.getDelay x), decodeOfEncode (.setDelay x), decodeOfEncode (.setSound x),
    writeV_completes s x s.dt, ⟨_, rfl, rfl, exec_unchanged (.setDelay x) s _ rfl⟩,
    ⟨_, rfl, rfl, exec_unchanged (.setSound x) s _ rfl⟩⟩

/-! ### The wait for a key (R214, D8, D9) -/

theorem State.advance_pc_sub_two (s : State) : s.advance.pc - 2 = s.pc :=
  BitVec.add_sub_cancel s.pc 2

/-- `Fx0A` after the pre-advance starts the wait at the `PC` the step found (D8). -/
theorem exec_waitKey_advance (x : Reg) (s : State) :
    exec (.waitKey x) s.advance = .next { s with execState := .awaitingKey x } := by
  rw [exec, execWaitKey, State.advance_pc_sub_two]
  rfl

/-- Settles O44: the executing step is the undone pre-advance and the end of a step, with no poll. -/
theorem waitKeyDoesNotAdvance : Obligations.WaitKeyDoesNotAdvance := by
  unfold Obligations.WaitKeyDoesNotAdvance
  intro x s
  refine ⟨decodeOfEncode (.waitKey x), ⟨_, rfl, rfl, rfl, exec_unchanged (.waitKey x) s _ rfl⟩, fun hexec => ?_⟩
  rw [step_of_executes hexec (exec_waitKey_advance x s), State.endStep_of_not_faulted _ (by simp)]

end Sys2Proof.Machine

/-! ## Exceptions and the host (60_exceptions.md): the invariant over transactions and schedules, the causes of a fault,
the tick, the latch write and the reads -/

namespace Sys2Proof.Machine

/-! ### The tick (R240) -/

theorem toNat_decTimer (b : Byte) : (decTimer b).toNat = b.toNat - 1 := by
  unfold decTimer
  split <;> bv_omega

theorem State.tick_of_not_faulted {s : State} (h : ∀ f, s.execState ≠ .faulted f) :
    s.tick = { s with dt := decTimer s.dt, st := decTimer s.st } := by
  unfold State.tick
  split
  · exact absurd ‹_› (h _)
  · rfl

/-- Settles O45: in `Faulted` the tick is the identity, in any other state a decrement of both timers. -/
theorem tickDecrementsTimers : Obligations.TickDecrementsTimers := by
  unfold Obligations.TickDecrementsTimers
  intro s
  refine ⟨rfl, fun ⟨f, hf⟩ => State.tick_of_faulted hf, fun hnot => ?_⟩
  rw [State.tick_of_not_faulted hnot]
  exact ⟨toNat_decTimer s.dt, toNat_decTimer s.st, rfl⟩

/-! ### The latch write and the reads (R243, R244, R245) -/

/-- Settles O46: by the transactions' own definitions, the latch the only field written. -/
theorem latchWriteAndHostReads : Obligations.LatchWriteAndHostReads := by
  unfold Obligations.LatchWriteAndHostReads
  intro s k
  exact ⟨rfl, rfl, rfl, rfl⟩

/-! ### The invariant over transactions and schedules (R246, R247) -/

/-- A state inherits the invariant through the parts the invariant reads: the timers and the latches are not among
them. -/
theorem State.Inv.congr {s t : State} (h : s.Inv) (cfg : t.cfg = s.cfg) (mem : t.mem = s.mem)
    (stack : t.stack = s.stack) (sp : t.sp = s.sp) (pc : t.pc = s.pc) (exec : t.execState = s.execState) : t.Inv where
  mem := mem ▸ h.mem
  pc := pc ▸ h.pc
  stack := by rw [cfg, stack, sp]; exact h.stack
  waiting := fun x hx => (State.fetchPhase_congr cfg mem pc).trans (h.waiting x (exec ▸ hx))

theorem State.Inv.tick {s : State} (h : s.Inv) : s.tick.Inv := by
  by_cases hf : ∃ f, s.execState = .faulted f
  · obtain ⟨f, hf⟩ := hf
    rwa [State.tick_of_faulted hf]
  · rw [State.tick_of_not_faulted (not_exists.1 hf)]
    exact h.congr rfl rfl rfl rfl rfl rfl

theorem State.Inv.setKeys {s : State} (h : s.Inv) (k : BitVec 16) : (s.setKeys k).Inv :=
  h.congr rfl rfl rfl rfl rfl rfl

/-- A launch builds canonical memory, the program's first `PC`, an empty stack, and waits for no key (R260). -/
theorem State.inv_of_load {cfg : Config} {draws : Draws} {initFill : Nat → Byte} {image : List Byte} {s : State}
    (h : State.load cfg draws initFill image = .ok s) : s.Inv := by
  have hmem := State.load_mem_wf cfg draws initFill image s h
  obtain ⟨-, rfl⟩ := (State.load_eq_ok_iff ..).1 h
  have hpc : State.reset.pc.toNat ≤ 0x1002 := by decide
  exact ⟨hmem, hpc, fun k hk => absurd hk (Nat.not_lt_zero _), nofun⟩

/-- Settles O54: a load builds the invariant anew, a step keeps it, the other transactions write no part of it. -/
theorem transactionsKeepInvariant : Obligations.TransactionsKeepInvariant := by
  unfold Obligations.TransactionsKeepInvariant
  intro tr s t r hs h
  cases tr with
  | load initFill image => exact State.inv_of_load (load_of_transact initFill image s t r h)
  | step => exact stepKeepsInvariant s t hs (step_of_stepReply s t r h)
  | tick => cases h; exact hs.tick
  | setKeys k => cases h; exact hs.setKeys k
  | readFb | readSound | readExec => cases h; exact hs

theorem runHost_cons_next {tr : Transaction} {ts : List Transaction} {s t : State}
    (h : runHost (tr :: ts) s = .next t) : ∃ r u, transact tr s = .next (r, u) ∧ runHost ts u = .next t := by
  rw [runHost] at h
  split at h
  next r u htr => exact ⟨r, u, htr, h⟩
  all_goals cases h

/-- What every transaction keeps, every schedule that answers keeps (R246). -/
theorem runHost_keeps {P : State → Prop} (hP : ∀ tr s t r, P s → transact tr s = .next (r, t) → P t)
    {ts : List Transaction} {s t : State} (hs : P s) (h : runHost ts s = .next t) : P t := by
  induction ts generalizing s with
  | nil => cases h; exact hs
  | cons tr ts ih =>
    obtain ⟨r, u, htr, hts⟩ := runHost_cons_next h
    exact ih (hP tr s u r hs htr) hts

/-- Settles O51: the launch meets the invariant and every transaction of the schedule keeps it. -/
theorem reachableStatesMeetInvariant : Obligations.ReachableStatesMeetInvariant := by
  unfold Obligations.ReachableStatesMeetInvariant
  rintro s ⟨cfg, draws, initFill, image, s0, ts, hload, hrun⟩
  exact runHost_keeps transactionsKeepInvariant (State.inv_of_load hload) hrun

/-! ### The causes of a fault (R230) -/

@[simp] theorem State.skipIf_execState (s : State) (c : Bool) : (s.skipIf c).execState = s.execState := by
  cases c <;> rfl

@[simp] theorem State.writeRegs_execState (s : State) (k : Nat) (bs : List Byte) :
    (s.writeRegs k bs).execState = s.execState := by
  obtain ⟨v, hv⟩ := State.writeRegs_shape bs s k
  rw [hv]

/-- An instruction that starts unfaulted and ends `Faulted` has `EXEC` in its footprint. -/
theorem footprint_exec_of_fault {i : Instr} {s t : State} {f : Fault} (hs : ∀ g, s.execState ≠ .faulted g)
    (h : exec i s = .next t) (hf : t.execState = .faulted f) : (footprint i s).exec = true :=
  Bool.of_not_eq_false fun hno => hs f (((exec_unchanged i s t h).exec hno).symm.trans hf)

section FaultCauses

variable {s t : State} {f : Fault} (hs : ∀ g, s.execState ≠ .faulted g) (hf : t.execState = .faulted f)
include hs hf

/-- A meaning with one condition and one fault ends `Faulted` only where the condition fails, with that fault. -/
theorem cause_of_ite {c : Prop} [Decidable c] {u : State} {g : Fault}
    (h : (if c then .next u else .next (s.raiseFault g) : Result) = .next t) (hu : u.execState = s.execState) :
    f = g ∧ ¬ c := by
  split at h <;> cases h
  · exact absurd (hu.symm.trans hf) (hs f)
  · cases hf; exact ⟨rfl, ‹_›⟩

theorem cause_of_ret (h : exec .ret s = .next t) : f = .stackUnderflow ∧ s.sp.val = 0 := by
  rw [exec, execRet_eq, ← ite_not] at h
  obtain ⟨hfault, hempty⟩ := cause_of_ite hs hf h rfl
  exact ⟨hfault, Decidable.of_not_not hempty⟩

theorem cause_of_call {nnn : BitVec 12} (h : exec (.call nnn) s = .next t) : f = .stackOverflow ∧ s.sp.val = 16 := by
  by_cases hroom : s.sp.val < 16
  · rw [exec_call_of_room nnn (k := s.sp.castLT hroom) rfl] at h
    cases h
    exact absurd hf (hs f)
  · have hfull : s.sp.val = 16 := by omega
    rw [exec_call_of_full nnn hfull] at h
    cases h; cases hf
    exact ⟨rfl, hfull⟩

theorem cause_of_keySkip {x : Reg} (h : exec (.skipKeyDown x) s = .next t ∨ exec (.skipKeyUp x) s = .next t) :
    f = .keyIndexOutOfRange ∧ s.cfg.keyIndex = .fault ∧ 16 ≤ (s.readV x).toNat := by
  simp only [exec, execSkipKeyDown_eq, execSkipKeyUp_eq] at h
  obtain ⟨hfault, hindex⟩ := h.elim (cause_of_ite hs hf · (by simp)) (cause_of_ite hs hf · (by simp))
  obtain ⟨hhigh, hmask⟩ := not_or.1 hindex
  refine ⟨hfault, ?_, Nat.not_lt.1 hhigh⟩
  cases hkey : s.cfg.keyIndex with
  | fault => rfl
  | mask => exact absurd hkey hmask

theorem cause_of_loadRegs {x : Reg} (h : exec (.loadRegs x) s = .next t) :
    f = .addressOutOfRange ∧ s.i.toNat + x.toNat ≥ 4096 := by
  rw [exec, execLoadRegs_eq] at h
  obtain ⟨hfault, hpast⟩ := cause_of_ite hs hf h (by simp)
  exact ⟨hfault, Nat.le_of_lt_succ (Nat.not_le.1 hpast)⟩

theorem cause_of_draw {x y : Reg} {n : BitVec 4} (h : exec (.draw x y n) s = .next t) :
    f = .addressOutOfRange ∧ 0 < n.toNat ∧ s.i.toNat + n.toNat - 1 ≥ 4096 := by
  rw [exec, execDraw_eq] at h
  obtain ⟨hfault, hpast⟩ := cause_of_ite hs hf h rfl
  simp only [memSize] at hpast
  exact ⟨hfault, by omega, by omega⟩

/-- The two faults of a block store from `I`: it begins in the protected low region, or it ends past memory (R174). -/
theorem cause_of_storeBlock {bs : List Byte} (hb : 0 < bs.length)
    (h : completeOr s (s.storeBlock s.i.toNat bs) = .next t) :
    (f = .fontWrite ∧ s.cfg.lowWrite = .fault ∧ s.i.toNat < 0x200) ∨
      (f = .addressOutOfRange ∧ s.i.toNat + bs.length > 4096) := by
  rw [completeOr_storeBlock s bs hb] at h
  split at h
  next hlow =>
    cases h; cases hf
    exact .inl ⟨rfl, hlow⟩
  next =>
    obtain ⟨hfault, hpast⟩ := cause_of_ite hs hf h rfl
    exact .inr ⟨hfault, Nat.not_le.1 hpast⟩

end FaultCauses

/-- Settles O13: the instructions with `EXEC` in their footprint, each by its own causes; the wait faults never. -/
theorem faultCauses : Obligations.FaultCauses := by
  unfold Obligations.FaultCauses
  intro i s t f hs h hf
  have hexec := footprint_exec_of_fault hs h hf
  cases i with
  | call nnn =>
    obtain ⟨hfault, hfull⟩ := cause_of_call hs hf h
    exact .inl ⟨hfault, hfull, nnn, rfl⟩
  | ret =>
    obtain ⟨hfault, hempty⟩ := cause_of_ret hs hf h
    exact .inr (.inl ⟨hfault, hempty, rfl⟩)
  | skipKeyDown x =>
    obtain ⟨hfault, hkey, hhigh⟩ := cause_of_keySkip hs hf (.inl h)
    exact .inr (.inr (.inl ⟨hfault, hkey, x, hhigh, .inl rfl⟩))
  | skipKeyUp x =>
    obtain ⟨hfault, hkey, hhigh⟩ := cause_of_keySkip hs hf (.inr h)
    exact .inr (.inr (.inl ⟨hfault, hkey, x, hhigh, .inr rfl⟩))
  | bcd x =>
    obtain ⟨hfault, hcfg, hlow⟩ | ⟨hfault, hpast⟩ := cause_of_storeBlock hs hf (by simp) h
    · exact .inr (.inr (.inr (.inl ⟨hfault, hcfg, hlow, x, .inl rfl⟩)))
    · exact .inr (.inr (.inr (.inr ⟨hfault, .inl ⟨x, rfl, Nat.le_of_lt_succ hpast⟩⟩)))
  | storeRegs x =>
    obtain ⟨hfault, hcfg, hlow⟩ | ⟨hfault, hpast⟩ := cause_of_storeBlock hs hf (by simp) h
    · exact .inr (.inr (.inr (.inl ⟨hfault, hcfg, hlow, x, .inr rfl⟩)))
    · rw [State.firstRegs_length] at hpast
      exact .inr (.inr (.inr (.inr ⟨hfault, .inr (.inl ⟨x, .inl rfl, Nat.le_of_lt_succ hpast⟩)⟩)))
  | loadRegs x =>
    obtain ⟨hfault, hpast⟩ := cause_of_loadRegs hs hf h
    exact .inr (.inr (.inr (.inr ⟨hfault, .inr (.inl ⟨x, .inr rfl, hpast⟩)⟩)))
  | draw x y n =>
    obtain ⟨hfault, hpos, hpast⟩ := cause_of_draw hs hf h
    exact .inr (.inr (.inr (.inr ⟨hfault, .inr (.inr ⟨x, y, n, rfl, hpos, hpast⟩)⟩)))
  | waitKey x => cases h; cases hf
  | _ => cases hexec

end Sys2Proof.Machine

/-! ## Reset and hazards (70_reset_and_hazards.md): the launch meets the invariant, the placed word is fetched -/

namespace Sys2Proof.Machine

open Sys2Proof.Laws

/-- Settles O55: a launch builds canonical memory, the program's first `PC`, an empty stack, and waits for no key. -/
theorem launchMeetsInvariant : Obligations.LaunchMeetsInvariant := by
  unfold Obligations.LaunchMeetsInvariant
  intro cfg draws initFill image s hload
  exact State.inv_of_load hload

/-! ### The placed word (log 9, log 10) -/

/-- A table word of 16 bits is a whole word: nothing above it is cleared (R70). -/
@[simp] theorem tableWord_of_word (w : Nat) : tableWord 16 w = BitVec.ofNat 16 w := by
  apply BitVec.eq_of_toNat_eq
  simp only [tableWord, BitVec.toNat_ofNat, Nat.mod_mod]

/-- `withFetchWord` stores the table word's bytes at a `PC` that passes the checks of the fetch phase, and runs. -/
theorem State.withFetchWord_shape (s : State) (nbits w : Nat) :
    ∃ p : Word, p.toNat + 1 < memSize ∧
      (s.cfg.pcCheck = .strict → p.toNat % 2 = 0 ∧ programBase ≤ p.toNat) ∧
      s.withFetchWord nbits w =
        { s with mem := s.mem.writeBytes p.toNat (tableBytes nbits w), pc := p, execState := .running } := by
  unfold State.withFetchWord
  cases hf : s.fetchPhase with
  | ok v =>
    obtain ⟨hbound, hstrict, -⟩ := (s.fetchPhase_ok_iff v).1 hf
    exact ⟨s.pc, hbound, hstrict, rfl⟩
  | error f => exact ⟨0x200, by decide, fun _ => by decide, rfl⟩

theorem State.withFetchWord_execState (s : State) (nbits w : Nat) :
    (s.withFetchWord nbits w).execState = .running := by
  obtain ⟨p, -, -, hs⟩ := s.withFetchWord_shape nbits w
  rw [hs]

/-- The fetch reads the two placed bytes back, the first as the high byte (R54, R55). -/
theorem State.fetchPhase_withFetchWord (s : State) (nbits w : Nat) :
    (s.withFetchWord nbits w).fetchPhase = .ok (tableWord nbits w) := by
  obtain ⟨p, hbound, hstrict, hs⟩ := s.withFetchWord_shape nbits w
  have hhi := Memory.read_writeBytes_stored s.mem p.toNat 0 (tableBytes nbits w) Nat.zero_lt_two
  have hlo := Memory.read_writeBytes_stored s.mem p.toNat 1 (tableBytes nbits w) Nat.one_lt_two
  rw [hs, State.fetchPhase_ok_iff]
  refine ⟨hbound, hstrict, ?_⟩
  calc tableWord nbits w
      = wordOfBytes (Word.hiByte (tableWord nbits w)) (Word.loByte (tableWord nbits w)) := (wordOfBytes_bytes _).symm
    _ = _ := (congrArg₂ wordOfBytes hhi hlo).symm

/-- The decoder of bytes and the decoder of words agree on a table word (R54, R70). -/
theorem decodeTableWord_eq_some_iff (nbits w : Nat) (i : Instr) :
    decodeTableWord nbits w = some i ↔ decode (tableWord nbits w) = .known i := by
  simp only [decodeTableWord, tableBytes, decodeBytes, wordOfBytes_bytes]
  cases decode (tableWord nbits w) with
  | known j => simp
  | unknown v => simp

/-- Settles O53: the placed bytes are the word's two, which the fetch and the decoder of bytes put together again. -/
theorem placedWordIsFetched : Obligations.PlacedWordIsFetched := by
  unfold Obligations.PlacedWordIsFetched
  intro s w _
  rw [← tableWord_of_word w]
  exact ⟨s.withFetchWord_execState 16 w, s.fetchPhase_withFetchWord 16 w, decodeTableWord_eq_some_iff 16 w⟩

end Sys2Proof.Machine

/-! ## The reset state and the sample words (70_reset_and_hazards.md section 1, 30_encoding.md section 3) -/

namespace Sys2Proof.Machine

/-! ### The default launch (log 2, log 4, log 7) -/

/-- A memory that reads as the background everywhere lists no cell (log 4). -/
theorem Memory.ofBytes_eq_nil {f : Nat → Byte} (h : ∀ a < memSize, f a = background a) : Memory.ofBytes f = [] :=
  List.filterMap_eq_nil_iff.2 fun a ha => if_pos (h a (List.mem_range.1 ha))

theorem getElem_defaultFont {a : Nat} (h : a < 80) : defaultFont[a] = background a := by
  simp [defaultFont, background]

/-- Above the 80 bytes of the font the background is 0 (R33, log 4). -/
theorem background_of_ge {a : Nat} (h : 80 ≤ a) : background a = 0 :=
  List.getD_eq_default _ _ (show fontBytes.length ≤ a from h)

/-- The default launch of an empty image puts the background's byte at every address (R260, R261). -/
theorem launchByte_default (a : Nat) : launchByte defaultConfig (fun _ => 0) [] a = background a := by
  rcases Nat.lt_or_ge a 80 with hfont | hfont
  · rw [launchByte_font _ _ _ a hfont]
    exact getElem_defaultFont hfont
  · rw [launchByte_fill defaultConfig _ [] a hfont (Nat.lt_or_ge a 0x200), background_of_ge hfont]

/-- Settles O2: the empty image fits, and the memory the default launch builds lists no cell. -/
theorem resetIsTheDefaultLaunch : Obligations.ResetIsTheDefaultLaunch := by
  unfold Obligations.ResetIsTheDefaultLaunch
  rw [State.load_of_fits _ _ _ _ (Nat.zero_le _), Memory.ofBytes_eq_nil fun a _ => launchByte_default a]
  rfl

/-- Settles O3: reset is the default launch, and every launch meets the invariant. -/
theorem resetMeetsInvariant : Obligations.ResetMeetsInvariant := by
  unfold Obligations.ResetMeetsInvariant
  exact State.inv_of_load resetIsTheDefaultLaunch

end Sys2Proof.Machine

namespace Sys2Proof.Laws

/-! ### The sample words (R72, R76) -/

/-- Settles O4: each of the seven words is the encoding of its instruction, and no row covers the last (R75, R77). -/
theorem sampleWordsDecode : Obligations.SampleWordsDecode := by
  unfold Obligations.SampleWordsDecode
  exact ⟨decodeOfEncode .clear, decodeOfEncode (.call 0x304#12), decodeOfEncode (.addImm 0xA#4 0x7F#8),
    decodeOfEncode (.shl 0x1#4 0x2#4), decodeOfEncode (.draw 0x1#4 0x2#4 0x5#4), decodeOfEncode (.skipKeyUp 0x3#4),
    decodeOfEncode (.bcd 0x6#4), (everyWordHasOneMeaning 0x9999#16).1 (by decide)⟩

end Sys2Proof.Laws
